-- ==== Sys2Proof/Word.lean ====
section
/-! DEFINITION. The word types of the CHIP-8 core (00_scope.md rules R6 to R8, R24). -/
namespace Sys2Proof

/-- A memory cell or a general register: 8 bits (R6, R7). -/
abbrev Byte := BitVec 8

/-- A memory address, I, PC or a stack slot: 12 bits (R6, R8). -/
abbrev Addr := BitVec 12

/-- A 4-bit field of an instruction word, or a key number (R24, R62). -/
abbrev Nibble := BitVec 4

/-- The number of a general register, `x` or `y` of an instruction word (R24, R40). -/
abbrev RegIdx := BitVec 4

/-- An instruction word: 16 bits (R100). -/
abbrev Word := BitVec 16

end Sys2Proof
end

