-- ==== Sys2Proof/Syntax.lean ====
section
/-! DEFINITION. The instructions: one constructor for each of the 34 rows of 30_encoding.md R104, in that order, with
the fields of R101 and R102. -/
namespace Sys2Proof

inductive Instr where
  /-- `00E0` CLS -/
  | cls
  /-- `00EE` RET -/
  | ret
  /-- `0nnn` SYS nnn -/
  | sys (nnn : Addr)
  /-- `1nnn` JP nnn -/
  | jp (nnn : Addr)
  /-- `2nnn` CALL nnn -/
  | call (nnn : Addr)
  /-- `3xkk` SE Vx, kk -/
  | seImm (x : RegIdx) (kk : Byte)
  /-- `4xkk` SNE Vx, kk -/
  | sneImm (x : RegIdx) (kk : Byte)
  /-- `5xy0` SE Vx, Vy -/
  | seReg (x y : RegIdx)
  /-- `6xkk` LD Vx, kk -/
  | ldImm (x : RegIdx) (kk : Byte)
  /-- `7xkk` ADD Vx, kk -/
  | addImm (x : RegIdx) (kk : Byte)
  /-- `8xy0` LD Vx, Vy -/
  | ldReg (x y : RegIdx)
  /-- `8xy1` OR Vx, Vy -/
  | orReg (x y : RegIdx)
  /-- `8xy2` AND Vx, Vy -/
  | andReg (x y : RegIdx)
  /-- `8xy3` XOR Vx, Vy -/
  | xorReg (x y : RegIdx)
  /-- `8xy4` ADD Vx, Vy -/
  | addReg (x y : RegIdx)
  /-- `8xy5` SUB Vx, Vy -/
  | subReg (x y : RegIdx)
  /-- `8xy6` SHR Vx; `y` is decoded and not used (R102, R158) -/
  | shr (x y : RegIdx)
  /-- `8xy7` SUBN Vx, Vy -/
  | subnReg (x y : RegIdx)
  /-- `8xyE` SHL Vx; `y` is decoded and not used (R102, R160) -/
  | shl (x y : RegIdx)
  /-- `9xy0` SNE Vx, Vy -/
  | sneReg (x y : RegIdx)
  /-- `Annn` LD I, nnn -/
  | ldI (nnn : Addr)
  /-- `Bnnn` JP V0, nnn -/
  | jpV0 (nnn : Addr)
  /-- `Cxkk` RND Vx, kk -/
  | rnd (x : RegIdx) (kk : Byte)
  /-- `Dxyn` DRW Vx, Vy, n -/
  | drw (x y : RegIdx) (n : Nibble)
  /-- `Ex9E` SKP Vx -/
  | skp (x : RegIdx)
  /-- `ExA1` SKNP Vx -/
  | sknp (x : RegIdx)
  /-- `Fx07` LD Vx, DT -/
  | ldVxDT (x : RegIdx)
  /-- `Fx0A` LD Vx, K -/
  | ldVxK (x : RegIdx)
  /-- `Fx15` LD DT, Vx -/
  | ldDTVx (x : RegIdx)
  /-- `Fx1E` ADD I, Vx -/
  | addI (x : RegIdx)
  /-- `Fx29` LD F, Vx -/
  | ldF (x : RegIdx)
  /-- `Fx33` LD B, Vx -/
  | ldB (x : RegIdx)
  /-- `Fx55` LD [I], Vx -/
  | stRegs (x : RegIdx)
  /-- `Fx65` LD Vx, [I] -/
  | ldRegs (x : RegIdx)
deriving DecidableEq, Repr

end Sys2Proof
end

