-- ==== Sys2Proof/WellFormed.lean ====
section
/-! DEFINITION. Which instructions have a word of their own. Every field value is encodable (30_encoding.md R102); the
one overlap of the opcode table is R106's: the words `00E0` and `00EE` are never `0nnn`. -/
namespace Sys2Proof

/-- R106: "a word equal to 0x00E0 is `00E0`, a word equal to 0x00EE is `00EE`, and `0nnn` is every other word". -/
def Instr.wellFormed : Instr → Bool
  | .sys nnn => nnn != 0x0E0 && nnn != 0x0EE
  | _ => true

end Sys2Proof
end

