-- ==== Sys2Proof/Config.lean ====
section
/-! DEFINITION. What an implementation fixes (the parameters of 00_scope.md section 3 that a model takes as
arguments) and the free values. The decided values stand in Machine/Platform.lean. -/
namespace Sys2Proof

/-- `ADDR_POLICY` (00_scope.md R15, R27): what an address past 4095 does. -/
inductive AddrPolicy where
  /-- It is reduced modulo 4096. -/
  | wrap
  /-- It raises `OutOfRange`. -/
  | fault
deriving DecidableEq, Repr, Inhabited

/-- `STACK_DEPTH` (00_scope.md R14): "a positive natural number or `unbounded`". -/
inductive StackDepth where
  | unbounded
  /-- A depth of `n + 1` slots, so that every depth is positive. -/
  | slots (n : Nat)
deriving DecidableEq, Repr, Inhabited

/-- The named parameters a model takes as arguments (00_scope.md R14, R15, R16, R19; 92_eei_decisions.md, last
paragraph). They are not state of the hardware: no step changes them. -/
structure Params where
  /-- `ADDR_POLICY` (R15). -/
  addrPolicy : AddrPolicy
  /-- `RET_ADVANCE` (R16). -/
  retAdvance : Bool
  /-- `SPRITE_MSB_LEFT` (R19). -/
  spriteMsbLeft : Bool
  /-- `STACK_DEPTH` (R14). -/
  stackDepth : StackDepth
deriving DecidableEq, Repr

/-- The value of `STACK_DEPTH` in the state after reset: OPEN (R14), so nothing is known of it. -/
opaque Config.stackDepth : StackDepth

/-- The byte that the `n`-th execution of `Cxkk` draws: a free value "under no law" (R18, R161), so nothing is known
of it. -/
opaque Config.randomByte : Nat → Byte

end Sys2Proof
end

