-- ==== Sys2Proof/Machine/Platform.lean ====
section
/-! DEFINITION. The fixed numbers of the core (00_scope.md section 3), the decided parameters and the contents of
memory after the reset of an empty program (70_reset_and_hazards.md R230, R231, R236). -/
namespace Sys2Proof.Machine

/-- The parameters in the state after reset: `WRAP`, `true`, `true` are the decided values of R15, R16, R19 (decisions
D3, D5, D11: DESIGN CHOICES of the spec, log 2 to 4); the stack depth is OPEN (R14, log 5). -/
def decidedParams : Params :=
  { addrPolicy := .wrap, retAdvance := true, spriteMsbLeft := true, stackDepth := Config.stackDepth }

/-- `LOAD_ADDR` (R12), where ROM bytes go and where PC starts. -/
def loadAddr : Nat := 512

/-- `ROM_MAX` (R12). -/
def romMax : Nat := 3584

/-- `FONT_BASE` (R11). -/
def fontBase : Nat := 0

/-- `GLYPH_STRIDE` (R11). -/
def glyphStride : Nat := 5

/-- `FONT[0..79]` (R11, R236): the customary glyphs. PRESUMED by the spec itself (D12, G1): log 7. -/
def font : List Byte :=
  [0xF0, 0x90, 0x90, 0x90, 0xF0, 0x20, 0x60, 0x20, 0x20, 0x70, 0xF0, 0x10, 0xF0, 0x80, 0xF0, 0xF0, 0x10, 0xF0, 0x10, 0xF0]
  ++ [0x90, 0x90, 0xF0, 0x10, 0x10, 0xF0, 0x80, 0xF0, 0x10, 0xF0, 0xF0, 0x80, 0xF0, 0x90, 0xF0, 0xF0, 0x10, 0x20, 0x40, 0x40]
  ++ [0xF0, 0x90, 0xF0, 0x90, 0xF0, 0xF0, 0x90, 0xF0, 0x10, 0xF0, 0xF0, 0x90, 0xF0, 0x90, 0x90, 0xE0, 0x90, 0xE0, 0x90, 0xE0]
  ++ [0xF0, 0x80, 0x80, 0x80, 0xF0, 0xE0, 0x90, 0x90, 0x90, 0xE0, 0xF0, 0x80, 0xF0, 0x80, 0xF0, 0xF0, 0x80, 0xF0, 0x80, 0x80]

/-- What an address that memory does not list reads as: the reset contents of R57 and R231, the font at 0 to 79 and 0
elsewhere (log 14, log 15). -/
def resetByte (a : Nat) : Byte := if a < 80 then font.getD a 0 else 0

end Sys2Proof.Machine
end

