-- ==== Sys2Proof/Machine/Memory.lean ====
section
/-! DEFINITION. `MEM[0..4095]` (20_memory.md R80) as a list of the cells that differ from the reset contents, in one
canonical form. -/
namespace Sys2Proof.Machine

/-- The cells whose byte differs from `resetByte`, addresses strictly rising. -/
abbrev Memory := List Host.Cell

/-- The byte at an address: the listed one, else the reset contents. -/
def Memory.read : Memory → Nat → Byte
  | [], a => resetByte a
  | (k, b) :: m, a => if k = a then b else Memory.read m a

/-- The memory without any cell at `a`. -/
def Memory.erase : Memory → Nat → Memory
  | [], _ => []
  | (k, b) :: m, a => if k = a then Memory.erase m a else (k, b) :: Memory.erase m a

/-- Put a cell before the first listed address above it. -/
def Memory.insert : Memory → Nat → Byte → Memory
  | [], a, b => [(a, b)]
  | (k, c) :: m, a, b => if a < k then (a, b) :: (k, c) :: m else (k, c) :: Memory.insert m a b

/-- Store a byte; a cell that holds what an unlisted address reads as is not listed. -/
def Memory.write (m : Memory) (a : Nat) (b : Byte) : Memory :=
  if b = resetByte a then Memory.erase m a else Memory.insert (Memory.erase m a) a b

/-- Store bytes at their addresses, in the order given. -/
def Memory.writeAll : Memory → List (Nat × Byte) → Memory
  | m, [] => m
  | m, (a, b) :: cells => Memory.writeAll (Memory.write m a b) cells

/-- Store consecutive bytes from `base` up. -/
def Memory.writeFrom : Memory → Nat → List Byte → Memory
  | m, _, [] => m
  | m, base, b :: bytes => Memory.writeFrom (Memory.write m base b) (base + 1) bytes

/-- The canonical form: addresses below 4096 and strictly rising, no cell equal to the reset contents. -/
def Memory.wf : Memory → Bool
  | [] => true
  | (k, b) :: m => decide (k < 4096) && b != resetByte k && m.all (fun c => decide (k < c.1)) && Memory.wf m

end Sys2Proof.Machine
end

