-- ==== Sys2Proof/Machine/State.lean ====
section
/-! DEFINITION. The state of the core (10_state.md section 1), what stops a step, the events that change the state
(00_scope.md R30) and the state after reset (R57, R231). -/
namespace Sys2Proof.Machine

/-- The fatal errors of 60_exceptions.md R200. Each ends its event at once and none of the event's writes take effect
(00_scope.md R28, R205); the run ends there (R207). -/
inductive Fault where
  /-- Code 1 (R201): raised by `00EE` on an empty stack. Safe: the machine stops where the spec's does nothing. -/
  | stackUnderflow
  /-- Code 3 (R203): raised by an address computation past 4095, with the value, only under `ADDR_POLICY = FAULT`.
  Safe. -/
  | outOfRange (v : Nat)
  /-- Code 4 (R204): raised by `2nnn` on a full stack. Safe. -/
  | stackOverflow
deriving DecidableEq, Repr

/-- What the model has no meaning for. -/
inductive Refusal where
  /-- Raised by an arm of `exec` whose instruction has no meaning; no arm is left so. Safe. -/
  | notModelled (mnemonic : String)
  /-- Raised by the event `LOAD` with more than 3584 bytes (70_reset_and_hazards.md R233: "a model refuses it"). Safe. -/
  | romTooLong
deriving DecidableEq, Repr

/-- The events by which the state changes (00_scope.md R30, 10_state.md R62). -/
inductive Event where
  /-- `STEP`: the core executes one instruction (R60). -/
  | step
  /-- `TICK`: the 60 Hz timer event (45_timer_key.md R193). -/
  | tick
  /-- `PRESS(k)` (R194). -/
  | press (k : Nibble)
  /-- `RELEASE(k)` (R195). -/
  | release (k : Nibble)
  /-- `LOAD(rom)` (70_reset_and_hazards.md R230). -/
  | load (rom : List Byte)
deriving DecidableEq, Repr

/-- `CS`, the control state (10_state.md R54), with `WX` (R55), which has a value only in `KEY_WAIT` (log 12). -/
inductive ControlState where
  /-- `READY`: the core accepts `STEP`. -/
  | ready
  /-- `TIMER_WAIT`: an `Fx15` is blocked until `DT` reaches 0. -/
  | timerWait
  /-- `KEY_WAIT`: an `Fx0A` is blocked until a key-press event; `wx` is its `x` field. -/
  | keyWait (wx : RegIdx)
deriving DecidableEq, Repr

/-- One pixel of the framebuffer, 1 as `true` (10_state.md R52). -/
abbrev Pixel := Bool

/-- `FB[r][c]`: 32 rows of 64 pixels (00_scope.md R9, 10_state.md R52). -/
abbrev FrameBuffer := Vector (Vector Pixel 64) 32

/-- Every piece of state that 10_state.md section 1 names, and the model's own fields `params`, `draws`, `schedule`. -/
structure State where
  /-- `V[0..15]` (R40). -/
  v : Vector Byte 16
  /-- `I` (R46). -/
  i : Addr
  /-- `PC` (R44): the address of the next instruction, of the blocking one during a wait. -/
  pc : Addr
  /-- The valid entries `STACK[0..SP-1]`, oldest first; `SP` is its length (R47, log 13). -/
  stack : List Addr
  /-- `DT` (R49). -/
  dt : Byte
  /-- `ST` (R50): counted down by `TICK`, written by no instruction (log 25). -/
  st : Byte
  /-- `KEY[0..15]` (R51): pressed is `true`. -/
  key : Vector Bool 16
  /-- `FB` (R52). -/
  fb : FrameBuffer
  /-- `MEM` (R53). -/
  mem : Memory
  /-- `CS` and `WX` (R54, R55). -/
  cs : ControlState
  /-- The named parameters (00_scope.md section 3): the model's own field, changed by no step (log 1). -/
  params : Params
  /-- How many random bytes have been drawn: the model's own field, which picks the free value (log 6). -/
  draws : Nat
  /-- The events still to come, oldest first; after them the driving loop issues `STEP`s: the model's own field, which
  holds the interleaving that R30 leaves open (log 8). -/
  schedule : List Event
deriving DecidableEq, Repr

/-- An empty screen. -/
def clearScreen : FrameBuffer := Vector.replicate 32 (Vector.replicate 64 false)

/-- The state after reset, "with no program yet": `LOAD` of the empty sequence (10_state.md R57,
70_reset_and_hazards.md R230, R231). `draws` and `schedule` are the model's own (DESIGN CHOICE, log 6, log 8). -/
def State.reset : State :=
  { v := Vector.replicate 16 0
    i := 0
    pc := BitVec.ofNat 12 loadAddr
    stack := []
    dt := 0
    st := 0
    key := Vector.replicate 16 false
    fb := clearScreen
    mem := []
    cs := .ready
    params := decidedParams
    draws := 0
    schedule := [] }

end Sys2Proof.Machine
end

