-- ==== Sys2Proof/Machine/Ops.lean ====
section
/-! DEFINITION. The named operations over registers, memory and the other state, address reduction, and the raising of
a fatal error. -/
namespace Sys2Proof.Machine

/-- What an event of the core answers. -/
abbrev Result := Host.Outcome State Fault Refusal

/-! ## Registers -/

/-- VF, the flag register, is register 15 (10_state.md R43). -/
def VF : RegIdx := 15

/-- `V[x]` (R40). -/
def State.reg (s : State) (x : RegIdx) : Byte := s.v[x.toNat]'x.isLt

/-- `V[x] <- b`. -/
def State.setReg (s : State) (x : RegIdx) (b : Byte) : State := { s with v := s.v.set x.toNat b x.isLt }

/-- `I <- a`. -/
def State.setI (s : State) (a : Addr) : State := { s with i := a }

/-- `PC <- a`. -/
def State.setPc (s : State) (a : Addr) : State := { s with pc := a }

/-- `DT <- b`. -/
def State.setDt (s : State) (b : Byte) : State := { s with dt := b }

/-- `ST <- b`. -/
def State.setSt (s : State) (b : Byte) : State := { s with st := b }

/-- `CS <- c`. -/
def State.setCs (s : State) (c : ControlState) : State := { s with cs := c }

/-! ## The call stack (10_state.md R47) -/

/-- `SP`, the number of valid entries. -/
def State.sp (s : State) : Nat := s.stack.length

/-- `STACK[j]`, where it is valid. -/
def State.stackSlot (s : State) (j : Nat) : Option Addr := s.stack[j]?

/-- The call stack becomes `l`. -/
def State.setStack (s : State) (l : List Addr) : State := { s with stack := l }

/-- `SP = STACK_DEPTH` (40_flow.md R134); never of an empty stack, and never when the depth is unbounded. -/
def stackFull (d : StackDepth) : Nat → Bool
  | 0 => false
  | n + 1 => d == .slots n

/-- `STACK[SP] <- a; SP <- SP + 1`. -/
def State.push (s : State) (a : Addr) : State := s.setStack (s.stack ++ [a])

/-- `STACK[SP - 1]`, if `SP` is not 0. -/
def State.top (s : State) : Option Addr := s.stack.getLast?

/-- `SP <- SP - 1`. -/
def State.pop (s : State) : State := s.setStack s.stack.dropLast

/-! ## Keypad (10_state.md R51) -/

/-- `KEY[k]`. -/
def State.keyDown (s : State) (k : Nibble) : Bool := s.key[k.toNat]'k.isLt

/-- `KEY[k] <- b`. -/
def State.setKey (s : State) (k : Nibble) (b : Bool) : State := { s with key := s.key.set k.toNat b k.isLt }

/-! ## Memory (00_scope.md R26) -/

/-- `MemRead(a, 1)`. -/
def State.readByte (s : State) (a : Addr) : Byte := s.mem.read a.toNat

/-- The memory becomes `m`. -/
def State.setMem (s : State) (m : Memory) : State := { s with mem := m }

/-- `MemWrite(a, 1, b)`. -/
def State.writeByte (s : State) (a : Addr) (b : Byte) : State := s.setMem (s.mem.write a.toNat b)

/-- `MemWrite` of each byte at its address, in the order given. -/
def State.storeBytes : State → List Addr → List Byte → State
  | s, a :: as, b :: bs => (s.writeByte a b).storeBytes as bs
  | s, _, _ => s

/-! ## Framebuffer (10_state.md R52) -/

/-- `FB[r][c]` of a framebuffer. -/
def pixelAt (fb : FrameBuffer) (r : Fin 32) (c : Fin 64) : Pixel := fb[r][c]

/-- `FB[r][c]`. -/
def State.pixel (s : State) (r : Fin 32) (c : Fin 64) : Pixel := pixelAt s.fb r c

/-- The framebuffer becomes `fb`. -/
def State.setFb (s : State) (fb : FrameBuffer) : State := { s with fb := fb }

/-! ## Control (10_state.md R54, R61) -/

/-- The busy indication: `CS != READY` (R61). -/
def State.busy (s : State) : Bool := s.cs != .ready

/-- The events still to come become `es`. -/
def State.setSchedule (s : State) (es : List Event) : State := { s with schedule := es }

/-- Count one more random byte. -/
def State.setDraws (s : State) (n : Nat) : State := { s with draws := n }

/-! ## Fatal errors and addresses -/

/-- `raise` (00_scope.md R28, 60_exceptions.md R205, R206): the event ends at once, nothing is saved, control goes
nowhere, and none of the event's writes take effect. There is no return from it (R207; log 10). -/
def raise (f : Fault) : Result := .fault f

/-- `A12(v)` (00_scope.md R27): `BitVec.ofNat 12 v` is `v mod 4096` as a 12-bit value. -/
def a12 (p : AddrPolicy) (v : Nat) : Except Fault Addr :=
  match p with
  | .wrap => .ok (BitVec.ofNat 12 v)
  | .fault => if v ≤ 4095 then .ok (BitVec.ofNat 12 v) else .error (.outOfRange v)

/-- Go on with `A12(v)`, or raise its error. -/
def withAddr (s : State) (v : Nat) (k : Addr → Result) : Result :=
  match a12 s.params.addrPolicy v with
  | .ok a => k a
  | .error f => raise f

/-- `PC <- A12(v)` as the last statement of an instruction. -/
def goto (s : State) (v : Nat) : Result := withAddr s v fun a => .next (s.setPc a)

/-- `PC <- PC_NEXT` (00_scope.md R29): every statement before it has left PC as it was. -/
def advance (s : State) : Result := goto s (s.pc.toNat + 2)

/-- `PC <- PC_SKIP` (00_scope.md R29). -/
def advanceSkip (s : State) : Result := goto s (s.pc.toNat + 4)

end Sys2Proof.Machine
end

