-- ==== Sys2Proof/Machine/Flags.lean ====
section
/-! DEFINITION. The values that the flag-writing instructions put into VF (10_state.md R43). -/
namespace Sys2Proof.Machine

/-- 1 or 0. -/
def flagByte (b : Bool) : Byte := if b then 1 else 0

/-- The carry of `8xy4`: 1 if the sum exceeds 255 (42_alu.md R156). -/
def carryFlag (a b : Byte) : Byte := flagByte (decide (a.toNat + b.toNat > 255))

/-- The flag of `8xy5` and `8xy7`: 1 if the minuend is strictly greater (R149, R157, R159). -/
def greaterFlag (minuend subtrahend : Byte) : Byte := flagByte (decide (minuend.toNat > subtrahend.toNat))

/-- The bit that `8xy6` shifts out, `V[x] & 1` (R158). -/
def shiftOutLow (b : Byte) : Byte := b &&& 1

/-- The bit that `8xyE` shifts out, `(V[x] >> 7) & 1` (R160). -/
def shiftOutHigh (b : Byte) : Byte := b >>> 7 &&& 1

/-- The collision flag of `Dxyn` (44_display.md R184). -/
def collisionFlag (hit : Bool) : Byte := flagByte hit

end Sys2Proof.Machine
end

