-- ==== Sys2Proof/Machine/Operands.lean ====
section
/-! DEFINITION. The operand forms: the addresses `I + k` (20_memory.md R85), register ranges, key numbers, decimal
digits, glyph addresses and the free random byte. -/
namespace Sys2Proof.Machine

/-- `A12(base)`, `A12(base + 1)`, …: `n` addresses in ascending order, or the first error (20_memory.md R85,
60_exceptions.md R208). -/
def addrRange (p : AddrPolicy) : Nat → Nat → Except Fault (List Addr)
  | _, 0 => .ok []
  | base, n + 1 =>
    match a12 p base with
    | .error f => .error f
    | .ok a =>
      match addrRange p (base + 1) n with
      | .error f => .error f
      | .ok as => .ok (a :: as)

/-- Go on with the addresses `A12(I + k)`, `k` in `0..n-1`, or raise the first error. -/
def withOperands (s : State) (n : Nat) (k : List Addr → Result) : Result :=
  match addrRange s.params.addrPolicy s.i.toNat n with
  | .ok as => k as
  | .error f => raise f

/-- `V[0]`, …, `V[x]` (10_state.md R42). -/
def State.regsUpTo (s : State) (x : RegIdx) : List Byte := s.v.toList.take (x.toNat + 1)

/-- `V[j] <- b` for each byte in turn, `j` ascending. -/
def State.loadRegs : State → Nat → List Byte → State
  | s, _, [] => s
  | s, j, b :: bs => (s.setReg (BitVec.ofNat 4 j) b).loadRegs (j + 1) bs

/-- The key that a register selects: the low nibble of its value (41_skip.md R144, decision D17: log 19). -/
def keyOf (b : Byte) : Nibble := b.extractLsb' 0 4

/-- A key number as a register value, zero-extended (45_timer_key.md R192, R194). -/
def byteOfKey (k : Nibble) : Byte := k.zeroExtend 8

/-- The hundreds, tens and ones of a byte (43_index_memory.md R173). -/
def decimalDigits (b : Byte) : List Byte :=
  [BitVec.ofNat 8 (b.toNat / 100), BitVec.ofNat 8 (b.toNat / 10 % 10), BitVec.ofNat 8 (b.toNat % 10)]

/-- The address of the glyph of a digit, `FONT_BASE + GLYPH_STRIDE * V[x]` on the whole byte (43_index_memory.md R172,
decision D18: log 20). -/
def glyphAddr (b : Byte) : Addr := BitVec.ofNat 12 (fontBase + glyphStride * b.toNat)

/-- The byte that this execution of `Cxkk` draws: a free value (00_scope.md R18, log 6). -/
def State.randomByte (s : State) : Byte := Config.randomByte s.draws

end Sys2Proof.Machine
end

