-- ==== Sys2Proof/Machine/Alu.lean ====
section
/-! DEFINITION. Register load, arithmetic, logic and random (42_alu.md). Statements run in the order written, each
reading the registers as the one before left them (decision D7: log 17); results are reduced modulo 256 (R149). -/
namespace Sys2Proof.Machine

/-- `6xkk` (R150). -/
def execLdImm (x : RegIdx) (kk : Byte) (s : State) : Result := advance (s.setReg x kk)

/-- `7xkk` (R151). -/
def execAddImm (x : RegIdx) (kk : Byte) (s : State) : Result := advance (s.setReg x (s.reg x + kk))

/-- `8xy0` (R152). -/
def execLdReg (x y : RegIdx) (s : State) : Result := advance (s.setReg x (s.reg y))

/-- `8xy1` (R153). -/
def execOrReg (x y : RegIdx) (s : State) : Result := advance (s.setReg x (s.reg x ||| s.reg y))

/-- `8xy2` (R154). -/
def execAndReg (x y : RegIdx) (s : State) : Result := advance (s.setReg x (s.reg x &&& s.reg y))

/-- `8xy3` (R155). -/
def execXorReg (x y : RegIdx) (s : State) : Result := advance (s.setReg x (s.reg x ^^^ s.reg y))

/-- Write the flag into VF, then the result, computed from the registers after that, into `V[x]` (D7). -/
def flagThen (s : State) (flag : Byte) (x : RegIdx) (result : State → Byte) : State :=
  (s.setReg VF flag).setReg x (result (s.setReg VF flag))

/-- `8xy4` (R156): the sum is computed before any write. -/
def execAddReg (x y : RegIdx) (s : State) : Result :=
  advance (flagThen s (carryFlag (s.reg x) (s.reg y)) x fun _ => s.reg x + s.reg y)

/-- `8xy5` (R157). -/
def execSubReg (x y : RegIdx) (s : State) : Result :=
  advance (flagThen s (greaterFlag (s.reg x) (s.reg y)) x fun t => t.reg x - t.reg y)

/-- `8xy6` (R158): the source is `V[x]`. -/
def execShr (x _y : RegIdx) (s : State) : Result :=
  advance (flagThen s (shiftOutLow (s.reg x)) x fun t => t.reg x >>> 1)

/-- `8xy7` (R159). -/
def execSubnReg (x y : RegIdx) (s : State) : Result :=
  advance (flagThen s (greaterFlag (s.reg y) (s.reg x)) x fun t => t.reg y - t.reg x)

/-- `8xyE` (R160): the source is `V[x]`. -/
def execShl (x _y : RegIdx) (s : State) : Result :=
  advance (flagThen s (shiftOutHigh (s.reg x)) x fun t => t.reg x <<< 1)

/-- `Cxkk` (R161): the byte is a free value (log 6). -/
def execRnd (x : RegIdx) (kk : Byte) (s : State) : Result :=
  advance ((s.setReg x (s.randomByte &&& kk)).setDraws (s.draws + 1))

end Sys2Proof.Machine
end

