-- ==== Sys2Proof/Machine/Display.lean ====
section
/-! DEFINITION. The display (44_display.md). -/
namespace Sys2Proof.Machine

/-- A framebuffer being drawn on, and whether a pixel of it was turned off. -/
structure Canvas where
  fb : FrameBuffer
  hit : Bool
deriving DecidableEq, Repr

/-- XOR one sprite bit onto a pixel, recording a collision (R181, R184). -/
def Canvas.plot (k : Canvas) (r : Fin 32) (c : Fin 64) (bit : Bool) : Canvas :=
  { fb := k.fb.set r (k.fb[r].set c (pixelAt k.fb r c ^^ bit)), hit := k.hit || (bit && pixelAt k.fb r c) }

/-- The `j`-th pixel of a sprite byte, from the left (00_scope.md R19). -/
def spriteBit (msbLeft : Bool) (b : Byte) (j : Nat) : Bool := b.getLsbD (if msbLeft then 7 - j else j)

/-- The column of the `j`-th pixel of a row: columns wrap (R182). -/
def spriteCol (x0 j : Nat) : Fin 64 := Fin.ofNat 64 (x0 + j)

/-- The eight pixels of a sprite byte, `j` ascending (R181). -/
def drawRow (msbLeft : Bool) (r : Fin 32) (x0 : Nat) (b : Byte) (k : Canvas) : Canvas :=
  [0, 1, 2, 3, 4, 5, 6, 7].foldl (fun k j => k.plot r (spriteCol x0 j) (spriteBit msbLeft b j)) k

/-- The rows of a sprite from `row` down, ascending; a row past the bottom is not drawn (R181, R183). -/
def drawRows (msbLeft : Bool) (x0 : Nat) : Nat → List Byte → Canvas → Canvas
  | _, [], k => k
  | row, b :: bs, k =>
    drawRows msbLeft x0 (row + 1) bs (if h : row < 32 then drawRow msbLeft ⟨row, h⟩ x0 b k else k)

/-- How many of `n` sprite rows from row `y0` lie on the screen: the others are "not read from memory" (R183, decision
D10: log 18). -/
def visibleRows (y0 n : Nat) : Nat := min n (32 - y0)

/-- `00E0` (R180). -/
def execCls (s : State) : Result := advance (s.setFb clearScreen)

/-- `Dxyn` (R181 to R184): the position is read before VF is written. -/
def execDrw (x y : RegIdx) (n : Nibble) (s : State) : Result :=
  let x0 := (s.reg x).toNat % 64
  let y0 := (s.reg y).toNat % 32
  withOperands s (visibleRows y0 n.toNat) fun as =>
    let k := drawRows s.params.spriteMsbLeft x0 y0 (as.map s.readByte) { fb := s.fb, hit := false }
    advance ((s.setFb k.fb).setReg VF (collisionFlag k.hit))

end Sys2Proof.Machine
end

