-- ==== Sys2Proof/Machine/Flow.lean ====
section
/-! DEFINITION. Control transfer (40_flow.md). -/
namespace Sys2Proof.Machine

/-- `0nnn` (R131): a no-op; `nnn` is ignored. -/
def execSys (_nnn : Addr) (s : State) : Result := advance s

/-- `00EE` (R132). `RET_ADVANCE` is 00_scope.md R16. -/
def execRet (s : State) : Result :=
  match s.top with
  | none => raise .stackUnderflow
  | some t => if s.params.retAdvance then goto s.pop (t.toNat + 2) else .next (s.pop.setPc t)

/-- `1nnn` (R133). -/
def execJp (nnn : Addr) (s : State) : Result := .next (s.setPc nnn)

/-- `2nnn` (R134): the address pushed is that of the call itself. -/
def execCall (nnn : Addr) (s : State) : Result :=
  if stackFull s.params.stackDepth s.sp then raise .stackOverflow else .next ((s.push s.pc).setPc nnn)

/-- `Bnnn` (R135). -/
def execJpV0 (nnn : Addr) (s : State) : Result := goto s (nnn.toNat + (s.reg 0).toNat)

/-- An unknown word (R136): no state change but the normal PC advance; the report is `reportOf`'s. -/
def execUnknown (s : State) : Result := advance s

end Sys2Proof.Machine
end

