-- ==== Sys2Proof/Machine/IndexMemory.lean ====
section
/-! DEFINITION. The address register and the loads and stores (43_index_memory.md). -/
namespace Sys2Proof.Machine

/-- `Annn` (R170). -/
def execLdI (nnn : Addr) (s : State) : Result := advance (s.setI nnn)

/-- `Fx1E` (R171). -/
def execAddI (x : RegIdx) (s : State) : Result :=
  withAddr s (s.i.toNat + (s.reg x).toNat) fun a => advance (s.setI a)

/-- `Fx29` (R172). -/
def execLdF (x : RegIdx) (s : State) : Result := advance (s.setI (glyphAddr (s.reg x)))

/-- `Fx33` (R173). -/
def execLdB (x : RegIdx) (s : State) : Result :=
  withOperands s 3 fun as => advance (s.storeBytes as (decimalDigits (s.reg x)))

/-- `Fx55` (R175). -/
def execStRegs (x : RegIdx) (s : State) : Result :=
  withOperands s (x.toNat + 1) fun as => advance (s.storeBytes as (s.regsUpTo x))

/-- `Fx65` (R176). -/
def execLdRegs (x : RegIdx) (s : State) : Result :=
  withOperands s (x.toNat + 1) fun as => advance (s.loadRegs 0 (as.map s.readByte))

end Sys2Proof.Machine
end

