-- ==== Sys2Proof/Machine/Skip.lean ====
section
/-! DEFINITION. The conditional skips (41_skip.md). -/
namespace Sys2Proof.Machine

/-- `if c then PC <- PC_SKIP else PC <- PC_NEXT`. -/
def skipIf (c : Bool) (s : State) : Result := if c then advanceSkip s else advance s

/-- `3xkk` (R140). -/
def execSeImm (x : RegIdx) (kk : Byte) (s : State) : Result := skipIf (s.reg x == kk) s

/-- `4xkk` (R141). -/
def execSneImm (x : RegIdx) (kk : Byte) (s : State) : Result := skipIf (s.reg x != kk) s

/-- `5xy0` (R142). -/
def execSeReg (x y : RegIdx) (s : State) : Result := skipIf (s.reg x == s.reg y) s

/-- `9xy0` (R143). -/
def execSneReg (x y : RegIdx) (s : State) : Result := skipIf (s.reg x != s.reg y) s

/-- `Ex9E` (R144). -/
def execSkp (x : RegIdx) (s : State) : Result := skipIf (s.keyDown (keyOf (s.reg x))) s

/-- `ExA1` (R145). -/
def execSknp (x : RegIdx) (s : State) : Result := skipIf (!s.keyDown (keyOf (s.reg x))) s

end Sys2Proof.Machine
end

