-- ==== Sys2Proof/Machine/TimerKey.lean ====
section
/-! DEFINITION. Timers and key wait (45_timer_key.md): the instructions that start a wait and the external events that
complete it. -/
namespace Sys2Proof.Machine

/-- `Fx07` (R190). -/
def execLdVxDT (x : RegIdx) (s : State) : Result := advance (s.setReg x s.dt)

/-- `Fx15` (R191): a non-zero value blocks the core, PC unchanged; completion is `tick`'s. -/
def execLdDTVx (x : RegIdx) (s : State) : Result :=
  if s.reg x = 0 then advance (s.setDt (s.reg x)) else .next ((s.setDt (s.reg x)).setCs .timerWait)

/-- `Fx0A` (R192): always blocks, PC unchanged; completion is `press`'s. -/
def execLdVxK (x : RegIdx) (s : State) : Result := .next (s.setCs (.keyWait x))

/-- A timer's next value: one less, unless it is 0 (R193). -/
def countDown (b : Byte) : Byte := if b = 0 then 0 else b - 1

/-- Both timers counted down. -/
def State.countTimers (s : State) : State := (s.setDt (countDown s.dt)).setSt (countDown s.st)

/-- `TICK` (R193). -/
def tick (s : State) : Result :=
  if s.cs = .timerWait ∧ s.countTimers.dt = 0 then advance (s.countTimers.setCs .ready) else .next s.countTimers

/-- `PRESS(k)` (R194). -/
def press (k : Nibble) (s : State) : Result :=
  match s.cs with
  | .keyWait wx => advance (((s.setKey k true).setReg wx (byteOfKey k)).setCs .ready)
  | _ => .next (s.setKey k true)

/-- `RELEASE(k)` (R195). -/
def release (k : Nibble) (s : State) : Result := .next (s.setKey k false)

end Sys2Proof.Machine
end

