-- ==== Sys2Proof/Machine/Load.lean ====
section
/-! DEFINITION. `LOAD` (70_reset_and_hazards.md R230 to R233), the machine's only reset (log 28). -/
namespace Sys2Proof.Machine

/-- The state after `LOAD(rom)`: every element at its reset value, the ROM from 512 up. The model's own fields stay
(log 29). -/
def loaded (rom : List Byte) (s : State) : State :=
  { State.reset with
    mem := Memory.writeFrom [] loadAddr rom
    params := s.params
    draws := s.draws
    schedule := s.schedule }

/-- `LOAD(rom)` in any control state; a ROM of more than 3584 bytes is refused (R233, log 31). -/
def load (rom : List Byte) (s : State) : Result :=
  if rom.length ≤ romMax then .next (loaded rom s) else .refused .romTooLong

end Sys2Proof.Machine
end

