-- ==== Sys2Proof/Machine/Events.lean ====
section
/-! DEFINITION. Instruction fetch, the event `STEP` (10_state.md R60, R61), the handling of every event (00_scope.md
R30) and the order in which events are taken. -/
namespace Sys2Proof.Machine

/-- `MemRead(PC, 2)` (20_memory.md R82), or the error of its second address. -/
def fetchWord (s : State) : Except Fault Word :=
  match a12 s.params.addrPolicy (s.pc.toNat + 1) with
  | .ok a => .ok (wordOfBytes (s.readByte s.pc) (s.readByte a))
  | .error f => .error f

/-- Execute a fetched word: the instruction it encodes, or R136 for an unknown word. -/
def execWord (w : Word) (s : State) : Result :=
  match decodeWord w with
  | .ok i => exec i s
  | .error _ => execUnknown s

/-- `STEP` (R60); when `CS != READY` it "is not accepted and changes nothing" (R61, log 9). -/
def stepEvent (s : State) : Result :=
  match s.cs with
  | .ready =>
    match fetchWord s with
    | .ok w => execWord w s
    | .error f => raise f
  | .timerWait => .next s
  | .keyWait _ => .next s

/-- The effect of an event (R30). -/
def handle (e : Event) (s : State) : Result :=
  match e with
  | .step => stepEvent s
  | .tick => tick s
  | .press k => press k s
  | .release k => release k s
  | .load rom => load rom s

/-- Take the next event: the oldest of the schedule, and `STEP` when none is left (log 8). -/
def takeTurn (s : State) : Result :=
  match s.schedule with
  | [] => handle .step s
  | e :: es => handle e (s.setSchedule es)

/-- `s` with a word stored where the next fetch reads it, in the control state that fetches and with no other event
before it (log 30). -/
def placeWord (s : State) (w : Word) : State :=
  (((s.writeByte s.pc (highByte w)).writeByte (s.pc + 1) (lowByte w)).setCs .ready).setSchedule []

end Sys2Proof.Machine
end

