-- ==== Sys2Proof/Machine/Outputs.lean ====
section
/-! DEFINITION. The outputs of an event (10_state.md R66, R67; 60_exceptions.md R200; 70_reset_and_hazards.md R238).
They are no state (log 11): "The core keeps no error latch and no cause register" (R206). -/
namespace Sys2Proof.Machine

/-- The errors and reports of R200. -/
inductive Report where
  | none
  | stackUnderflow
  | unknownOpcode (w : Word)
  | outOfRange (v : Nat)
  | stackOverflow
deriving DecidableEq, Repr

/-- The code on the error output (R200). -/
def Report.code : Report → Nat
  | .none => 0
  | .stackUnderflow => 1
  | .unknownOpcode _ => 2
  | .outOfRange _ => 3
  | .stackOverflow => 4

/-- The report of a fatal error (R206). -/
def Fault.report : Fault → Report
  | .stackUnderflow => .stackUnderflow
  | .outOfRange v => .outOfRange v
  | .stackOverflow => .stackOverflow

/-- What an event emits: the traced word, if any, and its report. -/
structure Reply where
  trace : Option Word
  report : Report
deriving DecidableEq, Repr

/-- The word that an accepted `STEP` fetches. -/
def fetched (s : State) : Option Word :=
  match s.cs, fetchWord s with
  | .ready, .ok w => some w
  | _, _ => none

/-- `TRACE(w)` (R66): once per accepted `STEP`, also on a fatal error (R205). -/
def traceOf (e : Event) (s : State) : Option Word :=
  match e with
  | .step => fetched s
  | _ => none

/-- The report of a step that completes: `UnknownOpcode` for an unknown word (R136, R202). -/
def unknownReport (e : Event) (s : State) : Report :=
  match traceOf e s with
  | some w =>
    match decodeWord w with
    | .ok _ => .none
    | .error _ => .unknownOpcode w
  | none => .none

/-- The error output of an event (R67, R200); a fatal error takes precedence (R208). -/
def reportOf (e : Event) (s : State) : Report :=
  match handle e s with
  | .next _ => unknownReport e s
  | .fault f => f.report
  | .refused _ => .none

/-- The outputs of an event taken in state `s`. -/
def reply (e : Event) (s : State) : Reply := { trace := traceOf e s, report := reportOf e s }

/-- The event that the next step takes. -/
def nextEvent (s : State) : Event :=
  match s.schedule with
  | [] => .step
  | e :: _ => e

/-- The outputs of the next step. -/
def stepReply (s : State) : Reply := reply (nextEvent s) s

end Sys2Proof.Machine
end

