-- ==== Sys2Proof/Safety.lean ====
section
/-! DEFINITION. The terms in which claims about the core are stated: when an address computation raises nothing, what a
good state is, and what the sprite of a draw is. -/
namespace Sys2Proof.Machine

/-- `A12(v)` raises no error: the policy is `WRAP`, or `v` is an address (00_scope.md R27). -/
abbrev AddrOk (p : AddrPolicy) (v : Nat) : Prop := p = .wrap ∨ v ≤ 4095

/-- None of `A12(base)`, …, `A12(base + n - 1)` raises an error, `base` being an address. -/
abbrev RangeOk (p : AddrPolicy) (base n : Nat) : Prop := p = .wrap ∨ base + n ≤ 4096

/-- `PC_NEXT` raises no error (00_scope.md R29). -/
abbrev State.CanAdvance (s : State) : Prop := AddrOk s.params.addrPolicy (s.pc.toNat + 2)

/-- `PC_SKIP` raises no error (00_scope.md R29). -/
abbrev State.CanSkip (s : State) : Prop := AddrOk s.params.addrPolicy (s.pc.toNat + 4)

/-- The fetch raises no error (20_memory.md R82). -/
abbrev State.CanFetch (s : State) : Prop := AddrOk s.params.addrPolicy (s.pc.toNat + 1)

/-- The operand addresses `I + k`, `k < n`, raise no error (20_memory.md R85). -/
abbrev State.OperandsOk (s : State) (n : Nat) : Prop := RangeOk s.params.addrPolicy s.i.toNat n

/-- The address of operand byte `k`: `I + k` reduced to 12 bits (20_memory.md R85). -/
def State.operandAddr (s : State) (k : Nat) : Addr := s.i + BitVec.ofNat 12 k

/-- `SP <= STACK_DEPTH` (10_state.md R56(c)). -/
abbrev StackFits : StackDepth → Nat → Prop
  | .unbounded, _ => True
  | .slots n, sp => sp ≤ n + 1

/-- The instruction whose word stands at PC. -/
def State.instrAtPc (s : State) : Option Instr :=
  match fetchWord s with
  | .ok w =>
    match decodeWord w with
    | .ok i => some i
    | .error _ => none
  | .error _ => none

/-- In a wait state PC holds the address of the blocking instruction (10_state.md R44), and `WX` is its `x` field
(R55). -/
def State.BlockedHere (s : State) : Prop :=
  match s.cs with
  | .ready => True
  | .timerWait => ∃ x, s.instrAtPc = some (.ldDTVx x)
  | .keyWait wx => s.instrAtPc = some (.ldVxK wx)

/-- The invariant of the core: 10_state.md R56 (a), (b), (c), R44 and R55, and the canonical form of memory. -/
structure State.Inv (s : State) : Prop where
  memWf : s.mem.wf = true
  timer : s.cs = .timerWait ↔ s.dt ≠ 0
  sound : s.st = 0
  stackFits : StackFits s.params.stackDepth s.sp
  blocked : s.BlockedHere

/-- The conditions under which an instruction raises `StackUnderflow` or `StackOverflow` (60_exceptions.md R200). -/
def StackErrorOf (i : Instr) (s : State) : Prop :=
  (i = .ret ∧ s.stack = []) ∨ ((∃ nnn, i = .call nnn) ∧ stackFull s.params.stackDepth s.sp = true)

/-- The events in order, each taken in the state the one before it left, stopping at the first fault or refusal. -/
def handleAll : List Event → State → Result
  | [], s => .next s
  | e :: es, s =>
    match handle e s with
    | .next t => handleAll es t
    | .fault f => .fault f
    | .refused r => .refused r

/-- The registers an instruction may write: its destination, and VF for the instructions of 10_state.md R43. -/
def writesReg : Instr → RegIdx → Bool
  | .ldImm x _, r | .addImm x _, r | .ldReg x _, r | .orReg x _, r | .andReg x _, r | .xorReg x _, r => r == x
  | .rnd x _, r | .ldVxDT x, r => r == x
  | .addReg x _, r | .subReg x _, r | .shr x _, r | .subnReg x _, r | .shl x _, r => r == x || r == VF
  | .drw _ _ _, r => r == VF
  | .ldRegs x, r => decide (r.toNat ≤ x.toNat)
  | .cls, _ | .ret, _ | .sys _, _ | .jp _, _ | .call _, _ | .jpV0 _, _ | .ldI _, _ => false
  | .seImm _ _, _ | .sneImm _ _, _ | .seReg _ _, _ | .sneReg _ _, _ | .skp _, _ | .sknp _, _ => false
  | .ldVxK _, _ | .ldDTVx _, _ | .addI _, _ | .ldF _, _ | .ldB _, _ | .stRegs _, _ => false

/-- The same machine under another address policy. -/
def State.withPolicy (s : State) (p : AddrPolicy) : State := { s with params := { s.params with addrPolicy := p } }

/-- The sprite bit that a draw at column `x0` and row `y0` with the rows `bytes` puts on the pixel of row `r` and
column `c`: the pixel lies in sprite row `r - y0`, at distance `(c - x0) mod 64` from the left (44_display.md R181,
R182, with the bit order of 00_scope.md R19). -/
def spriteAt (msbLeft : Bool) (x0 y0 : Nat) (bytes : List Byte) (r : Fin 32) (c : Fin 64) : Bool :=
  let j := (c.val + 64 - x0) % 64
  decide (y0 ≤ r.val) && decide (j < 8) && spriteBit msbLeft (bytes.getD (r.val - y0) 0) j

/-- The sprite bytes of a draw of `n` rows: `MEM[A12(I + k)]`, `k < n`. -/
def State.spriteBytes (s : State) (n : Nat) : List Byte := (List.range n).map fun k => s.readByte (s.operandAddr k)

end Sys2Proof.Machine
end

