-- ==== Sys2Proof/Certificates/Slice0/Obligations.lean ====
section
/-! DEFINITION. The statements about the core. -/

open Sys2Proof Sys2Proof.Machine

/-! ## Encoding -/

/-- Words written out bit by bit from the encodings of 30_encoding.md R104 (opcode_table.json), one or more for each
family. -/
def Obligations.WrittenWordsDecode : Prop :=
  decodeWord 0b0000000011100000 = .ok .cls ∧
  decodeWord 0b0000000011101110 = .ok .ret ∧
  decodeWord 0b0000000111100000 = .ok (.sys 0x1E0) ∧
  decodeWord 0b0010001100100110 = .ok (.call 0x326) ∧
  decodeWord 0b0011101000000101 = .ok (.seImm 0xA 0x05) ∧
  decodeWord 0b1000101010110100 = .ok (.addReg 0xA 0xB) ∧
  decodeWord 0b1100011110100101 = .ok (.rnd 0x7 0xA5) ∧
  decodeWord 0b1101000100101111 = .ok (.drw 0x1 0x2 0xF) ∧
  decodeWord 0b1110111110011110 = .ok (.skp 0xF) ∧
  decodeWord 0b1111001000010101 = .ok (.ldDTVx 0x2) ∧
  decodeWord 0b1111000101100101 = .ok (.ldRegs 0x1) ∧
  decodeWord 0b1111000100011000 = .error (.unknown 0xF118)

/-- Decode after encode is the identity on well-formed instructions, whatever bytes follow. -/
def Obligations.DecodeOfEncodeGivesInstruction : Prop :=
  ∀ (i : Instr) (rest : List Byte), i.wellFormed = true → decode (encode i ++ rest) = .ok (i, rest)

/-- Every word that decodes is the word of a well-formed instruction. -/
def Obligations.EncodeOfDecodeGivesWord : Prop :=
  ∀ (w : Word) (i : Instr), decodeWord w = .ok i → i.wellFormed = true ∧ encodeWord i = w

/-- The decoder, which follows the opcode map of R105, gives the first row of the opcode table of R104 that accepts the
word (R103, R106), and nothing where no row does. -/
def Obligations.DecoderAgreesWithOpcodeTable : Prop :=
  ∀ w : Word, (decodeWord w).toOption.map Instr.order = (opcodeTable.find? fun r => r.accepts w).map OpcodeRow.order

/-- The unknown words are exactly those that R107 lists. -/
def Obligations.UnknownWordsAreTheListedOnes : Prop :=
  ∀ w : Word, decodeWord w = .error (.unknown w) ↔
    (fieldOp w = 0x5 ∧ fieldN w ≠ 0) ∨
    (fieldOp w = 0x8 ∧ fieldN w ∈ [0x8, 0x9, 0xA, 0xB, 0xC, 0xD, 0xF]) ∨
    (fieldOp w = 0x9 ∧ fieldN w ≠ 0) ∨
    (fieldOp w = 0xE ∧ fieldKK w ∉ [0x9E, 0xA1]) ∨
    (fieldOp w = 0xF ∧ fieldKK w ∉ [0x07, 0x0A, 0x15, 0x1E, 0x29, 0x33, 0x55, 0x65])

/-! ## The step -/

/-- A step whose next event is `STEP` runs the instruction that the two bytes at PC encode (10_state.md R60), and a
`STEP` whose fetch raises ends in that error before any decode (R60, 20_memory.md R82, 60_exceptions.md R203 and R208, which
are the spec's decision D3). That an empty schedule means `STEP` is the model's choice (log 8). -/
def Obligations.StepRunsDecodedInstruction : Prop :=
  (∀ (s : State) (i : Instr), s.cs = .ready → s.CanFetch →
    decode [s.readByte s.pc, s.readByte (s.pc + 1#12)] = .ok (i, []) →
    (s.schedule = [] → step s = exec i s) ∧
    (∀ es, s.schedule = .step :: es → step s = exec i { s with schedule := es })) ∧
  (∀ s : State, s.cs = .ready → s.params.addrPolicy = .fault → s.pc = 0xFFF#12 →
    handle .step s = .fault (.outOfRange 4096))

/-- An unknown word changes PC alone and is reported with the word (40_flow.md R136, 60_exceptions.md R202). That the empty
schedule means `STEP` is the model's choice (log 8); the traced word is 10_state.md R66, the spec's decision D24. -/
def Obligations.UnknownWordAdvancesAndIsReported : Prop :=
  ∀ (s : State) (w : Word), s.cs = .ready → s.schedule = [] → s.CanFetch → s.CanAdvance →
    decode [s.readByte s.pc, s.readByte (s.pc + 1#12)] = .error (.unknown w) →
    step s = .next { s with pc := s.pc + 2#12 } ∧ stepReply s = { trace := some w, report := .unknownOpcode w }

/-- 20_memory.md R82, under both address policies. -/
def Obligations.FetchReadsTwoBytesBigEndian : Prop :=
  ∀ s : State,
    ((s.params.addrPolicy = .wrap ∨ s.pc ≠ 0xFFF#12) →
      ∃ w, fetchWord s = .ok w ∧ w.toNat = (s.readByte s.pc).toNat * 256 + (s.readByte (s.pc + 1#12)).toNat) ∧
    (s.params.addrPolicy = .fault → s.pc = 0xFFF#12 → fetchWord s = .error (.outOfRange 4096))

/-- 10_state.md R61 (the spec's decision D22): `STEP` in a wait state is not accepted and changes nothing. That the
model answers the same state is log 9. -/
def Obligations.StepIsNotAcceptedWhileWaiting : Prop :=
  ∀ s : State, s.cs ≠ .ready → handle .step s = .next s ∧ reply .step s = { trace := none, report := .none }

/-- The model's choice of log 8: a step takes the oldest scheduled event, and `STEP` when none is left. -/
def Obligations.StepTakesOldestScheduledEvent : Prop :=
  ∀ s : State,
    (s.schedule = [] → step s = handle .step s) ∧
    (∀ e es, s.schedule = e :: es → step s = handle e { s with schedule := es })

/-! ## Control transfer -/

/-- 40_flow.md R131. -/
def Obligations.SysIsANoOp : Prop :=
  ∀ (s : State) (nnn : Addr),
    ((0x0#4 ++ nnn : BitVec 16) ≠ 0x00E0 → (0x0#4 ++ nnn : BitVec 16) ≠ 0x00EE →
      decodeWord (0x0#4 ++ nnn) = .ok (.sys nnn)) ∧
    (s.CanAdvance → exec (.sys nnn) s = .next { s with pc := s.pc + 2#12 }) ∧
    (s.params.addrPolicy = .fault → 4094 ≤ s.pc.toNat → exec (.sys nnn) s = .fault (.outOfRange (s.pc.toNat + 2)))

/-- 40_flow.md R133. -/
def Obligations.JumpSetsPc : Prop :=
  ∀ (s : State) (nnn : Addr),
    decodeWord (0x1#4 ++ nnn) = .ok (.jp nnn) ∧ exec (.jp nnn) s = .next { s with pc := nnn }

/-- 40_flow.md R135, under both address policies. -/
def Obligations.JumpV0AddsRegisterZero : Prop :=
  ∀ (s : State) (nnn : Addr),
    decodeWord (0xB#4 ++ nnn) = .ok (.jpV0 nnn) ∧
    ((s.params.addrPolicy = .wrap ∨ nnn.toNat + (s.reg 0).toNat ≤ 4095) →
      exec (.jpV0 nnn) s = .next { s with pc := BitVec.ofNat 12 ((nnn.toNat + (s.reg 0).toNat) % 4096) }) ∧
    (s.params.addrPolicy = .fault → 4095 < nnn.toNat + (s.reg 0).toNat →
      exec (.jpV0 nnn) s = .fault (.outOfRange (nnn.toNat + (s.reg 0).toNat)))

/-- `2nnn` (40_flow.md, with the spec's decision D6 for a full stack): the pushed address is that of the call. -/
def Obligations.CallPushesItsOwnAddress : Prop :=
  ∀ (s : State) (nnn : Addr),
    ((∀ n, s.params.stackDepth = .slots n → s.sp ≠ n + 1) →
      exec (.call nnn) s = .next { s with stack := s.stack ++ [s.pc], pc := nnn }) ∧
    (∀ n, s.params.stackDepth = .slots n → s.sp = n + 1 → exec (.call nnn) s = .fault .stackOverflow)

/-- `00EE` on a non-empty stack (40_flow.md, with the spec's decision D5 and its alternative `RET_ADVANCE = false`). -/
def Obligations.ReturnPopsTheStack : Prop :=
  ∀ (s : State) (l : List Addr) (t : Addr), s.stack = l ++ [t] →
    (s.params.retAdvance = true → (s.params.addrPolicy = .wrap ∨ t.toNat + 2 ≤ 4095) →
      exec .ret s = .next { s with stack := l, pc := t + 2#12 }) ∧
    (s.params.retAdvance = false → exec .ret s = .next { s with stack := l, pc := t }) ∧
    (s.params.retAdvance = true → s.params.addrPolicy = .fault → 4094 ≤ t.toNat →
      exec .ret s = .fault (.outOfRange (t.toNat + 2)))

/-- 60_exceptions.md R201. -/
def Obligations.ReturnOnEmptyStackIsFatal : Prop :=
  ∀ s : State, s.sp = 0 → exec .ret s = .fault .stackUnderflow

/-- A return, from any state that holds the stack and the parameters the call left, goes on after the call (40_flow.md,
decision D5). -/
def Obligations.ReturnGoesOnAfterTheCall : Prop :=
  ∀ (s t u : State) (nnn : Addr), exec (.call nnn) s = .next t → u.stack = t.stack → u.params = s.params →
    s.params.retAdvance = true → s.CanAdvance → exec .ret u = .next { u with stack := s.stack, pc := s.pc + 2#12 }

/-! ## Skips -/

/-- 41_skip.md R140, R141. -/
def Obligations.SkipsOnImmediate : Prop :=
  ∀ (s : State) (x : RegIdx) (kk : Byte),
    decodeWord (0x3#4 ++ x ++ kk) = .ok (.seImm x kk) ∧
    decodeWord (0x4#4 ++ x ++ kk) = .ok (.sneImm x kk) ∧
    (s.reg x = kk → s.CanSkip → exec (.seImm x kk) s = .next { s with pc := s.pc + 4#12 }) ∧
    (s.reg x ≠ kk → s.CanAdvance → exec (.seImm x kk) s = .next { s with pc := s.pc + 2#12 }) ∧
    (s.reg x ≠ kk → s.CanSkip → exec (.sneImm x kk) s = .next { s with pc := s.pc + 4#12 }) ∧
    (s.reg x = kk → s.CanAdvance → exec (.sneImm x kk) s = .next { s with pc := s.pc + 2#12 }) ∧
    (s.params.addrPolicy = .fault → 4092 ≤ s.pc.toNat →
      (s.reg x = kk → exec (.seImm x kk) s = .fault (.outOfRange (s.pc.toNat + 4))) ∧
      (s.reg x ≠ kk → exec (.sneImm x kk) s = .fault (.outOfRange (s.pc.toNat + 4)))) ∧
    (s.params.addrPolicy = .fault → 4094 ≤ s.pc.toNat →
      (s.reg x ≠ kk → exec (.seImm x kk) s = .fault (.outOfRange (s.pc.toNat + 2))) ∧
      (s.reg x = kk → exec (.sneImm x kk) s = .fault (.outOfRange (s.pc.toNat + 2))))

/-- 41_skip.md R142, R143. -/
def Obligations.SkipsOnRegisters : Prop :=
  ∀ (s : State) (x y : RegIdx),
    decodeWord (0x5#4 ++ x ++ y ++ 0x0#4) = .ok (.seReg x y) ∧
    decodeWord (0x9#4 ++ x ++ y ++ 0x0#4) = .ok (.sneReg x y) ∧
    (s.reg x = s.reg y → s.CanSkip → exec (.seReg x y) s = .next { s with pc := s.pc + 4#12 }) ∧
    (s.reg x ≠ s.reg y → s.CanAdvance → exec (.seReg x y) s = .next { s with pc := s.pc + 2#12 }) ∧
    (s.reg x ≠ s.reg y → s.CanSkip → exec (.sneReg x y) s = .next { s with pc := s.pc + 4#12 }) ∧
    (s.reg x = s.reg y → s.CanAdvance → exec (.sneReg x y) s = .next { s with pc := s.pc + 2#12 }) ∧
    (s.params.addrPolicy = .fault → 4092 ≤ s.pc.toNat →
      (s.reg x = s.reg y → exec (.seReg x y) s = .fault (.outOfRange (s.pc.toNat + 4))) ∧
      (s.reg x ≠ s.reg y → exec (.sneReg x y) s = .fault (.outOfRange (s.pc.toNat + 4)))) ∧
    (s.params.addrPolicy = .fault → 4094 ≤ s.pc.toNat →
      (s.reg x ≠ s.reg y → exec (.seReg x y) s = .fault (.outOfRange (s.pc.toNat + 2))) ∧
      (s.reg x = s.reg y → exec (.sneReg x y) s = .fault (.outOfRange (s.pc.toNat + 2))))

/-- `Ex9E`, `ExA1` (41_skip.md): the key is the low nibble of `V[x]`, which is the spec's decision D17 (log 19). -/
def Obligations.SkipsOnKeys : Prop :=
  ∀ (s : State) (x : RegIdx) (k : Nibble), k.toNat = (s.reg x).toNat % 16 →
    (s.keyDown k = true → s.CanSkip → exec (.skp x) s = .next { s with pc := s.pc + 4#12 }) ∧
    (s.keyDown k = false → s.CanAdvance → exec (.skp x) s = .next { s with pc := s.pc + 2#12 }) ∧
    (s.keyDown k = false → s.CanSkip → exec (.sknp x) s = .next { s with pc := s.pc + 4#12 }) ∧
    (s.keyDown k = true → s.CanAdvance → exec (.sknp x) s = .next { s with pc := s.pc + 2#12 }) ∧
    (s.params.addrPolicy = .fault → 4092 ≤ s.pc.toNat →
      (s.keyDown k = true → exec (.skp x) s = .fault (.outOfRange (s.pc.toNat + 4))) ∧
      (s.keyDown k = false → exec (.sknp x) s = .fault (.outOfRange (s.pc.toNat + 4)))) ∧
    (s.params.addrPolicy = .fault → 4094 ≤ s.pc.toNat →
      (s.keyDown k = false → exec (.skp x) s = .fault (.outOfRange (s.pc.toNat + 2))) ∧
      (s.keyDown k = true → exec (.sknp x) s = .fault (.outOfRange (s.pc.toNat + 2))))

/-! ## Registers -/

/-- 42_alu.md R150. -/
def Obligations.LoadImmediateSetsRegister : Prop :=
  ∀ (s : State) (x : RegIdx) (kk : Byte),
    decodeWord (0x6#4 ++ x ++ kk) = .ok (.ldImm x kk) ∧
    (s.CanAdvance → exec (.ldImm x kk) s = .next { s with v := s.v.set x.toNat kk x.isLt, pc := s.pc + 2#12 })

/-- `7xkk` (42_alu.md R151); that VF is not written is the spec's decision D25 as well (log 22). -/
def Obligations.AddImmediateLosesTheCarry : Prop :=
  ∀ (s : State) (x : RegIdx) (kk : Byte),
    decodeWord (0x7#4 ++ x ++ kk) = .ok (.addImm x kk) ∧
    (s.CanAdvance → exec (.addImm x kk) s =
      .next { s with v := s.v.set x.toNat (BitVec.ofNat 8 (((s.reg x).toNat + kk.toNat) % 256)) x.isLt, pc := s.pc + 2#12 })

/-- 42_alu.md R152. -/
def Obligations.MoveCopiesRegister : Prop :=
  ∀ (s : State) (x y : RegIdx),
    decodeWord (0x8#4 ++ x ++ y ++ 0x0#4) = .ok (.ldReg x y) ∧
    (s.CanAdvance → exec (.ldReg x y) s = .next { s with v := s.v.set x.toNat (s.reg y) x.isLt, pc := s.pc + 2#12 })

/-- `8xy1`, `8xy2`, `8xy3` (42_alu.md), bit by bit; that VF is not written is the spec's decision D25 (log 22). -/
def Obligations.LogicActsBitwiseAndLeavesVF : Prop :=
  ∀ (s : State) (x y : RegIdx), s.CanAdvance →
    ∃ o a e : Byte,
      (∀ b, o.getLsbD b = ((s.reg x).getLsbD b || (s.reg y).getLsbD b)) ∧
      (∀ b, a.getLsbD b = ((s.reg x).getLsbD b && (s.reg y).getLsbD b)) ∧
      (∀ b, e.getLsbD b = ((s.reg x).getLsbD b ^^ (s.reg y).getLsbD b)) ∧
      exec (.orReg x y) s = .next { s with v := s.v.set x.toNat o x.isLt, pc := s.pc + 2#12 } ∧
      exec (.andReg x y) s = .next { s with v := s.v.set x.toNat a x.isLt, pc := s.pc + 2#12 } ∧
      exec (.xorReg x y) s = .next { s with v := s.v.set x.toNat e x.isLt, pc := s.pc + 2#12 }

/-- `8xy4` (42_alu.md): the carry into VF, then the sum into `V[x]`, so that with `x = F` the sum stays; that order is the
spec's decision D7 (log 17). -/
def Obligations.AddRegistersSetsCarry : Prop :=
  ∀ (s : State) (x y : RegIdx), s.CanAdvance →
    let sum := (s.reg x).toNat + (s.reg y).toNat
    exec (.addReg x y) s =
      .next { s with v := (s.v.set 15 (if 255 < sum then 1#8 else 0#8)).set x.toNat (BitVec.ofNat 8 (sum % 256)) x.isLt,
                     pc := s.pc + 2#12 }

/-- `8xy5`, `8xy7` (42_alu.md): 1 into VF if the minuend is strictly greater, then the difference modulo 256 of the
registers as they are after that; the order is the spec's decision D7 (log 17), the reduction D4 (log 16). -/
def Obligations.SubtractSetsGreaterFlag : Prop :=
  ∀ (s : State) (x y : RegIdx), s.CanAdvance →
    let v1 := s.v.set 15 (if (s.reg y).toNat < (s.reg x).toNat then 1#8 else 0#8)
    let v2 := s.v.set 15 (if (s.reg x).toNat < (s.reg y).toNat then 1#8 else 0#8)
    exec (.subReg x y) s =
      .next { s with v := v1.set x.toNat (BitVec.ofNat 8 ((256 + (v1[x.toNat]'x.isLt).toNat - (v1[y.toNat]'y.isLt).toNat) % 256)) x.isLt,
                     pc := s.pc + 2#12 } ∧
    exec (.subnReg x y) s =
      .next { s with v := v2.set x.toNat (BitVec.ofNat 8 ((256 + (v2[y.toNat]'y.isLt).toNat - (v2[x.toNat]'x.isLt).toNat) % 256)) x.isLt,
                     pc := s.pc + 2#12 }

/-- `8xy6`, `8xyE` (42_alu.md): the source is `V[x]`, `y` is ignored; the bit shifted out into VF, then the shifted
register as it is after that (decisions D7, D4: log 17, log 16). -/
def Obligations.ShiftsMoveOneBitThroughVF : Prop :=
  ∀ (s : State) (x y : RegIdx), s.CanAdvance →
    let v1 := s.v.set 15 (BitVec.ofNat 8 ((s.reg x).toNat % 2))
    let v2 := s.v.set 15 (BitVec.ofNat 8 ((s.reg x).toNat / 128))
    exec (.shr x y) s =
      .next { s with v := v1.set x.toNat (BitVec.ofNat 8 ((v1[x.toNat]'x.isLt).toNat / 2)) x.isLt, pc := s.pc + 2#12 } ∧
    exec (.shl x y) s =
      .next { s with v := v2.set x.toNat (BitVec.ofNat 8 ((v2[x.toNat]'x.isLt).toNat * 2 % 256)) x.isLt, pc := s.pc + 2#12 }

/-- `Cxkk` (42_alu.md): a free byte, of which nothing is known, masked by `kk` (log 6); so every bit that is 0 in `kk` is
0 in `V[x]`. The counter `draws` is the model's own. -/
def Obligations.RandomByteIsMasked : Prop :=
  ∀ (s : State) (x : RegIdx) (kk : Byte), s.CanAdvance →
    ∃ r : Byte, (∀ b, kk.getLsbD b = false → r.getLsbD b = false) ∧
      r = Config.randomByte s.draws &&& kk ∧
      exec (.rnd x kk) s = .next { s with v := s.v.set x.toNat r x.isLt, pc := s.pc + 2#12, draws := s.draws + 1 }

/-! ## The address register and memory -/

/-- 43_index_memory.md R170. -/
def Obligations.LoadIndexSetsI : Prop :=
  ∀ (s : State) (nnn : Addr),
    decodeWord (0xA#4 ++ nnn) = .ok (.ldI nnn) ∧
    (s.CanAdvance → exec (.ldI nnn) s = .next { s with i := nnn, pc := s.pc + 2#12 })

/-- `Fx1E` (43_index_memory.md) under both address policies; the reduction to 12 bits is the spec's decision D3, D4
(log 2, log 16), that VF is not written D25 (log 22). -/
def Obligations.AddIndexReducesToTwelveBits : Prop :=
  ∀ (s : State) (x : RegIdx),
    ((s.params.addrPolicy = .wrap ∨ s.i.toNat + (s.reg x).toNat ≤ 4095) → s.CanAdvance →
      exec (.addI x) s =
        .next { s with i := BitVec.ofNat 12 ((s.i.toNat + (s.reg x).toNat) % 4096), pc := s.pc + 2#12 }) ∧
    (s.params.addrPolicy = .fault → 4095 < s.i.toNat + (s.reg x).toNat →
      exec (.addI x) s = .fault (.outOfRange (s.i.toNat + (s.reg x).toNat)))

/-- `Fx29` (43_index_memory.md): for a digit the address of its glyph; above 15 the same formula is the spec's decision
D18 (log 20). -/
def Obligations.GlyphAddressIsFiveTimesTheDigit : Prop :=
  ∀ (s : State) (x : RegIdx), s.CanAdvance →
    ∃ a : Addr, a.toNat = 5 * (s.reg x).toNat ∧ exec (.ldF x) s = .next { s with i := a, pc := s.pc + 2#12 }

/-- `Fx33` (43_index_memory.md R173), under both address policies; that `I` is unchanged is the spec's decision D25
(log 22). -/
def Obligations.DecimalDigitsAreStored : Prop :=
  ∀ (s : State) (x : RegIdx),
    decodeWord (0xF#4 ++ x ++ 0x33#8) = .ok (.ldB x) ∧
    ((s.params.addrPolicy = .wrap ∨ s.i.toNat ≤ 4093) → s.CanAdvance →
      ∃ t, exec (.ldB x) s = .next t ∧ t = { s with mem := t.mem, pc := s.pc + 2#12 } ∧
        (t.readByte (s.operandAddr 0)).toNat = (s.reg x).toNat / 100 ∧
        (t.readByte (s.operandAddr 1)).toNat = (s.reg x).toNat / 10 % 10 ∧
        (t.readByte (s.operandAddr 2)).toNat = (s.reg x).toNat % 10 ∧
        ∀ a, (∀ k, k < 3 → a ≠ s.operandAddr k) → t.readByte a = s.readByte a) ∧
    (s.params.addrPolicy = .fault → 4093 < s.i.toNat → exec (.ldB x) s = .fault (.outOfRange 4096))

/-- `Fx55` (43_index_memory.md), under both address policies; that `I` and the registers are unchanged is the spec's
decision D25 (log 22). -/
def Obligations.RegistersAreStored : Prop :=
  ∀ (s : State) (x : RegIdx),
    ((s.params.addrPolicy = .wrap ∨ s.i.toNat + x.toNat ≤ 4095) → s.CanAdvance →
      ∃ t, exec (.stRegs x) s = .next t ∧ t = { s with mem := t.mem, pc := s.pc + 2#12 } ∧
        (∀ y : RegIdx, y.toNat ≤ x.toNat → t.readByte (s.operandAddr y.toNat) = s.reg y) ∧
        ∀ a, (∀ k, k ≤ x.toNat → a ≠ s.operandAddr k) → t.readByte a = s.readByte a) ∧
    (s.params.addrPolicy = .fault → 4095 < s.i.toNat + x.toNat → exec (.stRegs x) s = .fault (.outOfRange 4096))

/-- `Fx65` (43_index_memory.md), under both address policies; that `I` is unchanged is the spec's decision D25
(log 22). -/
def Obligations.RegistersAreLoaded : Prop :=
  ∀ (s : State) (x : RegIdx),
    ((s.params.addrPolicy = .wrap ∨ s.i.toNat + x.toNat ≤ 4095) → s.CanAdvance →
      ∃ t, exec (.ldRegs x) s = .next t ∧ t = { s with v := t.v, pc := s.pc + 2#12 } ∧
        (∀ y : RegIdx, y.toNat ≤ x.toNat → t.reg y = s.readByte (s.operandAddr y.toNat)) ∧
        (∀ y : RegIdx, x.toNat < y.toNat → t.reg y = s.reg y)) ∧
    (s.params.addrPolicy = .fault → 4095 < s.i.toNat + x.toNat → exec (.ldRegs x) s = .fault (.outOfRange 4096))

/-- The round trip of 43_index_memory.md R174 (marked derived there): `Fx65` from any state with the memory and the `I`
that `Fx55` left restores `V[0..x]`, whatever the registers were changed to in between. -/
def Obligations.StoreThenLoadRestoresRegisters : Prop :=
  ∀ (s t u : State) (x : RegIdx), exec (.stRegs x) s = .next t →
    u.mem = t.mem → u.i = t.i → u.params = t.params → u.CanAdvance →
    ∃ w, exec (.ldRegs x) u = .next w ∧
      (∀ y : RegIdx, y.toNat ≤ x.toNat → w.reg y = s.reg y) ∧ (∀ y : RegIdx, x.toNat < y.toNat → w.reg y = u.reg y)

/-! ## Display -/

/-- `00E0` (44_display.md R180); that VF is not written is the spec's decision D25 (log 22), that the word is `CLS` and not
a `0nnn` D26 (log 26). -/
def Obligations.ClearScreenClearsEveryPixel : Prop :=
  decodeWord 0x00E0 = .ok .cls ∧
  ∀ s : State, s.CanAdvance →
    ∃ t, exec .cls s = .next t ∧ t = { s with fb := t.fb, pc := s.pc + 2#12 } ∧ ∀ r c, t.pixel r c = false

/-- `Dxyn` (44_display.md R181 to R184): each pixel is XORed with its sprite bit; columns wrap; a row past the bottom has
no pixel and is not read (decision D10, log 18); VF is 1 if a pixel was turned off and 0 if not (decision D8, log 21);
the bit order is a parameter (decision D11, log 4). -/
def Obligations.DrawXorsEachPixel : Prop :=
  ∀ (s : State) (x y : RegIdx) (n : Nibble),
    let x0 := (s.reg x).toNat % 64
    let y0 := (s.reg y).toNat % 32
    let bit := spriteAt s.params.spriteMsbLeft x0 y0 (s.spriteBytes n.toNat)
    ((s.params.addrPolicy = .wrap ∨ s.i.toNat + min n.toNat (32 - y0) ≤ 4096) → s.CanAdvance →
      ∃ t flag, exec (.drw x y n) s = .next t ∧
        t = { s with v := s.v.set 15 flag, fb := t.fb, pc := s.pc + 2#12 } ∧
        (∀ r c, t.pixel r c = (s.pixel r c ^^ bit r c)) ∧
        ((∃ r c, s.pixel r c = true ∧ t.pixel r c = false) → flag = 1#8) ∧
        ((¬ ∃ r c, s.pixel r c = true ∧ t.pixel r c = false) → flag = 0#8)) ∧
    (s.params.addrPolicy = .fault → 4096 < s.i.toNat + min n.toNat (32 - y0) →
      exec (.drw x y n) s = .fault (.outOfRange 4096))

/-- The property of 44_display.md R185 (marked derived there): an identical second draw restores the screen, and reports a
collision if and only if the first turned a pixel on. -/
def Obligations.DrawTwiceRestoresTheScreen : Prop :=
  ∀ (s t u : State) (x y : RegIdx) (n : Nibble), exec (.drw x y n) s = .next t →
    u.fb = t.fb → u.mem = s.mem → u.i = s.i → u.params = s.params → u.reg x = s.reg x → u.reg y = s.reg y →
    u.CanAdvance →
    ∃ w, exec (.drw x y n) u = .next w ∧ w.fb = s.fb ∧ (w.reg VF = 0 ∨ w.reg VF = 1) ∧
      (w.reg VF = 1 ↔ ∃ r c, s.pixel r c = false ∧ t.pixel r c = true)

/-! ## Timers, key wait and the external events -/

/-- `Fx07` (45_timer_key.md R190); that `DT` is 0 whenever an instruction executes is R56(a), marked derived there. -/
def Obligations.DelayTimerIsRead : Prop :=
  ∀ (s : State) (x : RegIdx), s.CanAdvance →
    exec (.ldVxDT x) s = .next { s with v := s.v.set x.toNat s.dt x.isLt, pc := s.pc + 2#12 } ∧
    (s.Inv → s.cs = .ready → s.dt = 0)

/-- The start of `Fx15` (45_timer_key.md R191); that 0 does not block is the spec's decision D15 (log 24). -/
def Obligations.DelayTimerLoadStartsAWait : Prop :=
  ∀ (s : State) (x : RegIdx),
    (s.reg x ≠ 0 → exec (.ldDTVx x) s = .next { s with dt := s.reg x, cs := .timerWait }) ∧
    (s.reg x = 0 → s.CanAdvance → exec (.ldDTVx x) s = .next { s with dt := 0#8, pc := s.pc + 2#12 })

/-- The start of `Fx0A` (45_timer_key.md R192): it blocks whatever `KEY` holds, which is the spec's decision D16
(log 23). -/
def Obligations.KeyLoadStartsAWait : Prop :=
  ∀ (s : State) (x : RegIdx), exec (.ldVxK x) s = .next { s with cs := .keyWait x }

/-- `TICK` (45_timer_key.md R193, decisions D14, D15), on a core that waits for the timer and on one that does not. -/
def Obligations.TickCountsDownAndEndsTheTimerWait : Prop :=
  ∀ s : State,
    let dt' := BitVec.ofNat 8 (s.dt.toNat - 1)
    let st' := BitVec.ofNat 8 (s.st.toNat - 1)
    ((s.cs ≠ .timerWait ∨ 1 < s.dt.toNat) → handle .tick s = .next { s with dt := dt', st := st' }) ∧
    (s.cs = .timerWait → s.dt.toNat ≤ 1 → s.CanAdvance →
      handle .tick s = .next { s with dt := 0#8, st := st', cs := .ready, pc := s.pc + 2#12 }) ∧
    (s.cs = .timerWait → s.dt.toNat ≤ 1 → s.params.addrPolicy = .fault → 4094 ≤ s.pc.toNat →
      handle .tick s = .fault (.outOfRange (s.pc.toNat + 2)))

/-- `PRESS(k)` (45_timer_key.md R194, decision D16: log 23). -/
def Obligations.PressEndsTheKeyWait : Prop :=
  ∀ (s : State) (k : Nibble),
    ((∀ wx, s.cs ≠ .keyWait wx) → handle (.press k) s = .next { s with key := s.key.set k.toNat true k.isLt }) ∧
    (∀ wx, s.cs = .keyWait wx → s.CanAdvance →
      handle (.press k) s =
        .next { s with key := s.key.set k.toNat true k.isLt, v := s.v.set wx.toNat (BitVec.ofNat 8 k.toNat) wx.isLt,
                       cs := .ready, pc := s.pc + 2#12 }) ∧
    (∀ wx, s.cs = .keyWait wx → s.params.addrPolicy = .fault → 4094 ≤ s.pc.toNat →
      handle (.press k) s = .fault (.outOfRange (s.pc.toNat + 2)))

/-- 45_timer_key.md R195. -/
def Obligations.ReleaseClearsItsKeyOnly : Prop :=
  ∀ (s : State) (k : Nibble), handle (.release k) s = .next { s with key := s.key.set k.toNat false k.isLt }

/-- The wait of `Fx15` lasts exactly `V[x]` ticks (45_timer_key.md R191, decision D15). -/
def Obligations.TimerWaitLastsExactlyVxTicks : Prop :=
  ∀ (s t : State) (x : RegIdx), s.st = 0 → s.reg x ≠ 0 → s.CanAdvance → exec (.ldDTVx x) s = .next t →
    (∀ k, k < (s.reg x).toNat →
      handleAll (List.replicate k .tick) t = .next { s with dt := BitVec.ofNat 8 ((s.reg x).toNat - k), cs := .timerWait }) ∧
    handleAll (List.replicate (s.reg x).toNat .tick) t = .next { s with dt := 0#8, cs := .ready, pc := s.pc + 2#12 }

/-! ## Reset and load -/

/-- The reset values of 10_state.md R57. `I`, `DT`, `ST`, `KEY` and the memory outside the font are the spec's decision D9
(log 14), the font bytes D12 (log 7), `CS` D21. -/
def Obligations.ResetLeavesTheSpecsValues : Prop :=
  (∀ x, State.reset.reg x = 0) ∧ State.reset.pc = 512#12 ∧ State.reset.sp = 0 ∧ State.reset.i = 0 ∧
  State.reset.dt = 0 ∧ State.reset.st = 0 ∧ (∀ k, State.reset.keyDown k = false) ∧
  (∀ r c, State.reset.pixel r c = false) ∧ State.reset.cs = .ready ∧
  (∀ a : Addr, (h : a.toNat < 80) → State.reset.readByte a = font[a.toNat]'h) ∧
  (∀ a : Addr, 80 ≤ a.toNat → State.reset.readByte a = 0)

/-- `LOAD(rom)` (70_reset_and_hazards.md R230, decisions D9, D21): every element at its reset value, the ROM from 512 up,
0 after it; a ROM of more than 3584 bytes is refused. The model's own fields stay (log 29). -/
def Obligations.LoadResetsAndPlacesTheRom : Prop :=
  ∀ (s : State) (rom : List Byte),
    (rom.length ≤ 3584 →
      ∃ t, handle (.load rom) s = .next t ∧
        t = { State.reset with mem := t.mem, params := s.params, draws := s.draws, schedule := s.schedule } ∧
        (∀ (a : Addr) (j : Nat) (h : j < rom.length), a.toNat = 512 + j → t.readByte a = rom[j]) ∧
        (∀ a : Addr, a.toNat < 512 ∨ 512 + rom.length ≤ a.toNat → t.readByte a = State.reset.readByte a)) ∧
    (3584 < rom.length → handle (.load rom) s = .refused .romTooLong)

/-- The property of 70_reset_and_hazards.md R234 (marked derived there): after `LOAD` of the same ROM, two machines with
the same parameters, the same random bytes and the same events to come run alike, whatever they did before. -/
def Obligations.LoadForgetsHistory : Prop :=
  ∀ (s s' : State) (rom : List Byte) (es : List Event), s.params = s'.params → s.draws = s'.draws →
    s.schedule = s'.schedule → handleAll (.load rom :: es) s = handleAll (.load rom :: es) s'

/-! ## Errors -/

/-- A fatal error comes only from its cause of 60_exceptions.md section 1: an empty stack, a full stack, or an address past
4095 under `ADDR_POLICY = FAULT`. -/
def Obligations.FatalErrorsComeOnlyFromTheirCauses : Prop :=
  ∀ (i : Instr) (s : State) (f : Fault), exec i s = .fault f →
    (f = .stackUnderflow ∧ i = .ret ∧ s.stack = []) ∨
    (f = .stackOverflow ∧ (∃ nnn, i = .call nnn) ∧ ∃ n, s.params.stackDepth = .slots n ∧ s.sp = n + 1) ∨
    (∃ v, f = .outOfRange v ∧ 4095 < v ∧ s.params.addrPolicy = .fault)

/-- Under the decided `ADDR_POLICY = WRAP` every instruction completes in every state, but for a return on an empty stack
and a call on a full one. -/
def Obligations.EveryInstructionCompletesUnderWrap : Prop :=
  ∀ (i : Instr) (s : State), s.params.addrPolicy = .wrap → ¬ StackErrorOf i s → ∃ t, exec i s = .next t

/-- A stack error stays (60_exceptions.md R207, marked derived there): after a timer or key event the step still raises
it. -/
def Obligations.StackErrorsPersist : Prop :=
  ∀ (s t : State) (e : Event) (f : Fault), f = .stackUnderflow ∨ f = .stackOverflow →
    handle .step s = .fault f → (e = .tick ∨ ∃ k, e = .press k ∨ e = .release k) → handle e s = .next t →
    handle .step t = .fault f

/-- The error output of 60_exceptions.md R200 (the codes are the spec's decision D19): a fatal error is reported by its
code, and a completed event other than a `STEP` of an unknown word by 0. An accepted `STEP` traces the word it fetched, on a
fatal error as well (60_exceptions.md R205; 10_state.md R66, the spec's decision D24). -/
def Obligations.ErrorOutputCarriesTheCode : Prop :=
  (∀ (e : Event) (s : State), handle e s = .fault .stackUnderflow → (reply e s).report.code = 1) ∧
  (∀ (e : Event) (s : State) (v : Nat), handle e s = .fault (.outOfRange v) → (reply e s).report = .outOfRange v ∧
    (reply e s).report.code = 3) ∧
  (∀ (e : Event) (s : State), handle e s = .fault .stackOverflow → (reply e s).report.code = 4) ∧
  (∀ (s t : State) (w : Word), s.cs = .ready → fetchWord s = .ok w → handle .step s = .next t →
    (reply .step s).trace = some w ∧
    ((reply .step s).report.code = 0 ↔ ∃ i, decodeWord w = .ok i) ∧
    ((reply .step s).report.code = 2 ↔ decodeWord w = .error (.unknown w))) ∧
  (∀ (s : State) (w : Word) (f : Fault), s.cs = .ready → fetchWord s = .ok w → handle .step s = .fault f →
    (reply .step s).trace = some w) ∧
  (∀ (e : Event) (s t : State), e ≠ .step → handle e s = .next t → reply e s = { trace := none, report := .none })

/-- Under `ADDR_POLICY = FAULT` the normal advance past 4095 raises `OutOfRange` in every instruction that ends in it, where
none of its operand addresses does (60_exceptions.md R203, R208), and in a `STEP` of an unknown word, whose report the fatal
error displaces (R208). For `Fx33`, `Fx55`, `Fx65`, `Dxyn` and `Fx1E` the operand addresses come first. The skips are
`SkipsOnImmediate`, `SkipsOnRegisters` and `SkipsOnKeys`; the advances that end a wait are
`TickCountsDownAndEndsTheTimerWait` and `PressEndsTheKeyWait`. -/
def Obligations.AdvancePastTheEndIsOutOfRange : Prop :=
  ∀ (s : State) (x y : RegIdx) (n : Nibble) (kk : Byte) (nnn : Addr), s.params.addrPolicy = .fault → 4094 ≤ s.pc.toNat →
    let f : Result := .fault (.outOfRange (s.pc.toNat + 2))
    exec (.sys nnn) s = f ∧ exec .cls s = f ∧ exec (.ldImm x kk) s = f ∧ exec (.addImm x kk) s = f ∧ exec (.ldReg x y) s = f ∧
    exec (.orReg x y) s = f ∧ exec (.andReg x y) s = f ∧ exec (.xorReg x y) s = f ∧ exec (.addReg x y) s = f ∧
    exec (.subReg x y) s = f ∧ exec (.shr x y) s = f ∧ exec (.subnReg x y) s = f ∧ exec (.shl x y) s = f ∧
    exec (.rnd x kk) s = f ∧ exec (.ldI nnn) s = f ∧ exec (.ldF x) s = f ∧ exec (.ldVxDT x) s = f ∧
    (s.reg x = 0 → exec (.ldDTVx x) s = f) ∧
    (s.i.toNat + (s.reg x).toNat ≤ 4095 → exec (.addI x) s = f) ∧
    (s.i.toNat ≤ 4093 → exec (.ldB x) s = f) ∧
    (s.i.toNat + x.toNat ≤ 4095 → exec (.stRegs x) s = f ∧ exec (.ldRegs x) s = f) ∧
    (s.i.toNat + min n.toNat (32 - (s.reg y).toNat % 32) ≤ 4096 → exec (.drw x y n) s = f) ∧
    execUnknown s = f ∧
    (∀ w, s.cs = .ready → s.CanFetch →
      decode [s.readByte s.pc, s.readByte (s.pc + 1#12)] = .error (.unknown w) →
      handle .step s = f ∧ reply .step s = { trace := some w, report := .outOfRange (s.pc.toNat + 2) })

/-! ## Frames and whole-machine rules -/

/-- Which instructions may write each piece of state but PC and the registers (10_state.md, 20_memory.md R80): everything
else leaves it as it was. -/
def Obligations.EachStateHasOnlyItsWriters : Prop :=
  ∀ (i : Instr) (s t : State), exec i s = .next t →
    ((∀ x, i ≠ .ldB x) → (∀ x, i ≠ .stRegs x) → ∀ a, t.readByte a = s.readByte a) ∧
    (i ≠ .cls → (∀ x y n, i ≠ .drw x y n) → ∀ r c, t.pixel r c = s.pixel r c) ∧
    (i ≠ .ret → (∀ nnn, i ≠ .call nnn) → t.stack = s.stack) ∧
    ((∀ nnn, i ≠ .ldI nnn) → (∀ x, i ≠ .addI x) → (∀ x, i ≠ .ldF x) → t.i = s.i) ∧
    ((∀ x, i ≠ .ldDTVx x) → t.dt = s.dt) ∧
    ((∀ x, i ≠ .ldDTVx x) → (∀ x, i ≠ .ldVxK x) → t.cs = s.cs) ∧
    ((∀ x kk, i ≠ .rnd x kk) → t.draws = s.draws) ∧
    t.st = s.st ∧ (∀ k, t.keyDown k = s.keyDown k) ∧ t.params = s.params ∧ t.schedule = s.schedule

/-- A register is written only as the destination of an instruction, and VF only by the instructions of 10_state.md R43
besides (decision D25, log 22). -/
def Obligations.OnlyNamedRegistersAreWritten : Prop :=
  ∀ (i : Instr) (s t : State) (r : RegIdx), exec i s = .next t → writesReg i r = false → t.reg r = s.reg r

/-- A store touches only the bytes at its operand addresses (20_memory.md R85). -/
def Obligations.StoresTouchOnlyTheirBytes : Prop :=
  ∀ (s t : State) (x : RegIdx) (a : Addr),
    (exec (.ldB x) s = .next t → (∀ k, k < 3 → a ≠ s.operandAddr k) → t.readByte a = s.readByte a) ∧
    (exec (.stRegs x) s = .next t → (∀ k, k ≤ x.toNat → a ≠ s.operandAddr k) → t.readByte a = s.readByte a)

/-- What a waiting core keeps (10_state.md R56(d), marked derived there; 60_exceptions.md R216): no event but `LOAD`
changes memory, `I`, the stack or the screen, and the registers change only by the key press that ends the wait. -/
def Obligations.WaitingCoreKeepsItsState : Prop :=
  ∀ (s t : State) (e : Event), s.cs ≠ .ready → (∀ rom, e ≠ .load rom) → handle e s = .next t →
    t.mem = s.mem ∧ t.i = s.i ∧ t.stack = s.stack ∧ t.fb = s.fb ∧
    (t.v = s.v ∨ ∃ wx k, s.cs = .keyWait wx ∧ e = .press k ∧ t.v = s.v.set wx.toNat (BitVec.ofNat 8 k.toNat) wx.isLt)

/-- `A12` is the only place where the two address policies differ (00_scope.md R27, decision D3): whatever step the core
takes under `FAULT` it takes under `WRAP` as well. -/
def Obligations.FaultPolicyRefinesWrap : Prop :=
  ∀ s t : State, s.params.addrPolicy = .fault → step s = .next t →
    step (s.withPolicy .wrap) = .next (t.withPolicy .wrap)

/-! ## The invariant -/

/-- The reset state is good, whatever the open parameters are. -/
def Obligations.ResetMeetsTheInvariant : Prop := State.reset.Inv

/-- Every step keeps the invariant (10_state.md R56 (a), (b), (c), R44, R55, and the canonical form of memory). -/
def Obligations.StepKeepsTheInvariant : Prop :=
  ∀ s t : State, s.Inv → step s = .next t → t.Inv
end

