-- ==== Sys2Proof/Laws/Arith.lean ====
section
/-! SUPPORT. The values that flags, timers, shifts and key numbers take, as arithmetic on naturals. -/
namespace Sys2Proof.Machine

theorem add_eq_ofNat (a b : Byte) : a + b = BitVec.ofNat 8 ((a.toNat + b.toNat) % 256) := by
  apply BitVec.eq_of_toNat_eq; simp

theorem sub_eq_ofNat (a b : Byte) : a - b = BitVec.ofNat 8 ((256 + a.toNat - b.toNat) % 256) := by
  apply BitVec.eq_of_toNat_eq
  have := a.isLt
  have := b.isLt
  simp [BitVec.toNat_sub]; omega

theorem shiftRight_eq_ofNat (a : Byte) : a >>> 1 = BitVec.ofNat 8 (a.toNat / 2) := by
  apply BitVec.eq_of_toNat_eq
  have := a.isLt
  simp [Nat.shiftRight_eq_div_pow]; omega

theorem shiftLeft_eq_ofNat (a : Byte) : a <<< 1 = BitVec.ofNat 8 (a.toNat * 2 % 256) := by
  apply BitVec.eq_of_toNat_eq
  simp [Nat.shiftLeft_eq]

theorem carryFlag_eq (a b : Byte) : carryFlag a b = if 255 < a.toNat + b.toNat then 1#8 else 0#8 := by
  simp only [carryFlag, flagByte]; split <;> simp_all

theorem greaterFlag_eq (a b : Byte) : greaterFlag a b = if b.toNat < a.toNat then 1#8 else 0#8 := by
  simp only [greaterFlag, flagByte]; split <;> simp_all

theorem shiftOutLow_eq (a : Byte) : shiftOutLow a = BitVec.ofNat 8 (a.toNat % 2) := by
  apply BitVec.eq_of_toNat_eq
  simp [shiftOutLow, Nat.and_one_is_mod]; omega

theorem shiftOutHigh_eq (a : Byte) : shiftOutHigh a = BitVec.ofNat 8 (a.toNat / 128) := by
  apply BitVec.eq_of_toNat_eq
  have := a.isLt
  simp [shiftOutHigh, Nat.and_one_is_mod, Nat.shiftRight_eq_div_pow]; omega

theorem countDown_eq (b : Byte) : countDown b = BitVec.ofNat 8 (b.toNat - 1) := by
  simp only [countDown]
  split
  · rename_i h; subst h; rfl
  · rename_i h
    have : b.toNat ≠ 0 := fun e => h (BitVec.eq_of_toNat_eq e)
    apply BitVec.eq_of_toNat_eq; simp [BitVec.toNat_sub]; omega

theorem byteOfKey_eq (k : Nibble) : byteOfKey k = BitVec.ofNat 8 k.toNat := by
  apply BitVec.eq_of_toNat_eq; simp [byteOfKey]

theorem keyOf_eq {b : Byte} {k : Nibble} (h : k.toNat = b.toNat % 16) : keyOf b = k := by
  apply BitVec.eq_of_toNat_eq; simp [keyOf, h]

theorem toNat_glyphAddr (b : Byte) : (glyphAddr b).toNat = 5 * b.toNat := by
  have := b.isLt
  simp [glyphAddr, fontBase, glyphStride]; omega

end Sys2Proof.Machine
end

