-- ==== Sys2Proof/Laws/Decode.lean ====
section
/-! SUPPORT. The fields of a composed word, and a word from its fields. -/
namespace Sys2Proof

@[simp] theorem fieldOp_formNNN (op : Nibble) (nnn : Addr) : fieldOp (formNNN op nnn) = op := by
  unfold fieldOp formNNN; grind
@[simp] theorem fieldNNN_formNNN (op : Nibble) (nnn : Addr) : fieldNNN (formNNN op nnn) = nnn := by
  unfold fieldNNN formNNN; grind
@[simp] theorem fieldOp_formXKK (op : Nibble) (x : RegIdx) (kk : Byte) : fieldOp (formXKK op x kk) = op := by
  unfold fieldOp formXKK; grind
@[simp] theorem fieldX_formXKK (op : Nibble) (x : RegIdx) (kk : Byte) : fieldX (formXKK op x kk) = x := by
  unfold fieldX formXKK; grind
@[simp] theorem fieldKK_formXKK (op : Nibble) (x : RegIdx) (kk : Byte) : fieldKK (formXKK op x kk) = kk := by
  unfold fieldKK formXKK; grind
@[simp] theorem fieldOp_formXYN (op : Nibble) (x y : RegIdx) (n : Nibble) : fieldOp (formXYN op x y n) = op := by
  unfold fieldOp formXYN; grind
@[simp] theorem fieldX_formXYN (op : Nibble) (x y : RegIdx) (n : Nibble) : fieldX (formXYN op x y n) = x := by
  unfold fieldX formXYN; grind
@[simp] theorem fieldY_formXYN (op : Nibble) (x y : RegIdx) (n : Nibble) : fieldY (formXYN op x y n) = y := by
  unfold fieldY formXYN; grind
@[simp] theorem fieldN_formXYN (op : Nibble) (x y : RegIdx) (n : Nibble) : fieldN (formXYN op x y n) = n := by
  unfold fieldN formXYN; grind

/-- A word is its fields, in each of the three forms. -/
theorem formNNN_fields (w : Word) : formNNN (fieldOp w) (fieldNNN w) = w := by
  unfold formNNN fieldOp fieldNNN; ext i hi; grind
theorem formXKK_fields (w : Word) : formXKK (fieldOp w) (fieldX w) (fieldKK w) = w := by
  unfold formXKK fieldOp fieldX fieldKK; ext i hi; grind
theorem formXYN_fields (w : Word) : formXYN (fieldOp w) (fieldX w) (fieldY w) (fieldN w) = w := by
  unfold formXYN fieldOp fieldX fieldY fieldN; ext i hi; grind

theorem formNNN_eq {w : Word} {op : Nibble} {nnn : Addr} (h1 : fieldOp w = op) (h2 : fieldNNN w = nnn) :
    formNNN op nnn = w := by rw [← h1, ← h2, formNNN_fields]
theorem formXKK_eq {w : Word} {op : Nibble} {x : RegIdx} {kk : Byte} (h1 : fieldOp w = op) (h2 : fieldX w = x)
    (h3 : fieldKK w = kk) : formXKK op x kk = w := by rw [← h1, ← h2, ← h3, formXKK_fields]
theorem formXYN_eq {w : Word} {op : Nibble} {x y : RegIdx} {n : Nibble} (h1 : fieldOp w = op) (h2 : fieldX w = x)
    (h3 : fieldY w = y) (h4 : fieldN w = n) : formXYN op x y n = w := by rw [← h1, ← h2, ← h3, ← h4, formXYN_fields]

@[simp] theorem wordOfBytes_highByte_lowByte (w : Word) : wordOfBytes (highByte w) (lowByte w) = w := by
  unfold wordOfBytes highByte lowByte; ext i hi; grind

end Sys2Proof
end

