-- ==== Sys2Proof/Laws/State.lean ====
section
/-! SUPPORT. One lemma per field per update of State. -/
namespace Sys2Proof.Machine

variable (s : State)

@[simp] theorem setReg_v (x : RegIdx) (b : Byte) : (s.setReg x b).v = s.v.set x.toNat b x.isLt := rfl
@[simp] theorem setReg_i (x : RegIdx) (b : Byte) : (s.setReg x b).i = s.i := rfl
@[simp] theorem setReg_pc (x : RegIdx) (b : Byte) : (s.setReg x b).pc = s.pc := rfl
@[simp] theorem setReg_stack (x : RegIdx) (b : Byte) : (s.setReg x b).stack = s.stack := rfl
@[simp] theorem setReg_dt (x : RegIdx) (b : Byte) : (s.setReg x b).dt = s.dt := rfl
@[simp] theorem setReg_st (x : RegIdx) (b : Byte) : (s.setReg x b).st = s.st := rfl
@[simp] theorem setReg_key (x : RegIdx) (b : Byte) : (s.setReg x b).key = s.key := rfl
@[simp] theorem setReg_fb (x : RegIdx) (b : Byte) : (s.setReg x b).fb = s.fb := rfl
@[simp] theorem setReg_mem (x : RegIdx) (b : Byte) : (s.setReg x b).mem = s.mem := rfl
@[simp] theorem setReg_cs (x : RegIdx) (b : Byte) : (s.setReg x b).cs = s.cs := rfl
@[simp] theorem setReg_params (x : RegIdx) (b : Byte) : (s.setReg x b).params = s.params := rfl
@[simp] theorem setReg_draws (x : RegIdx) (b : Byte) : (s.setReg x b).draws = s.draws := rfl
@[simp] theorem setReg_schedule (x : RegIdx) (b : Byte) : (s.setReg x b).schedule = s.schedule := rfl

@[simp] theorem setI_v (a : Addr) : (s.setI a).v = s.v := rfl
@[simp] theorem setI_i (a : Addr) : (s.setI a).i = a := rfl
@[simp] theorem setI_pc (a : Addr) : (s.setI a).pc = s.pc := rfl
@[simp] theorem setI_stack (a : Addr) : (s.setI a).stack = s.stack := rfl
@[simp] theorem setI_dt (a : Addr) : (s.setI a).dt = s.dt := rfl
@[simp] theorem setI_st (a : Addr) : (s.setI a).st = s.st := rfl
@[simp] theorem setI_key (a : Addr) : (s.setI a).key = s.key := rfl
@[simp] theorem setI_fb (a : Addr) : (s.setI a).fb = s.fb := rfl
@[simp] theorem setI_mem (a : Addr) : (s.setI a).mem = s.mem := rfl
@[simp] theorem setI_cs (a : Addr) : (s.setI a).cs = s.cs := rfl
@[simp] theorem setI_params (a : Addr) : (s.setI a).params = s.params := rfl
@[simp] theorem setI_draws (a : Addr) : (s.setI a).draws = s.draws := rfl
@[simp] theorem setI_schedule (a : Addr) : (s.setI a).schedule = s.schedule := rfl

@[simp] theorem setPc_v (a : Addr) : (s.setPc a).v = s.v := rfl
@[simp] theorem setPc_i (a : Addr) : (s.setPc a).i = s.i := rfl
@[simp] theorem setPc_pc (a : Addr) : (s.setPc a).pc = a := rfl
@[simp] theorem setPc_stack (a : Addr) : (s.setPc a).stack = s.stack := rfl
@[simp] theorem setPc_dt (a : Addr) : (s.setPc a).dt = s.dt := rfl
@[simp] theorem setPc_st (a : Addr) : (s.setPc a).st = s.st := rfl
@[simp] theorem setPc_key (a : Addr) : (s.setPc a).key = s.key := rfl
@[simp] theorem setPc_fb (a : Addr) : (s.setPc a).fb = s.fb := rfl
@[simp] theorem setPc_mem (a : Addr) : (s.setPc a).mem = s.mem := rfl
@[simp] theorem setPc_cs (a : Addr) : (s.setPc a).cs = s.cs := rfl
@[simp] theorem setPc_params (a : Addr) : (s.setPc a).params = s.params := rfl
@[simp] theorem setPc_draws (a : Addr) : (s.setPc a).draws = s.draws := rfl
@[simp] theorem setPc_schedule (a : Addr) : (s.setPc a).schedule = s.schedule := rfl

@[simp] theorem setStack_v (l : List Addr) : (s.setStack l).v = s.v := rfl
@[simp] theorem setStack_i (l : List Addr) : (s.setStack l).i = s.i := rfl
@[simp] theorem setStack_pc (l : List Addr) : (s.setStack l).pc = s.pc := rfl
@[simp] theorem setStack_stack (l : List Addr) : (s.setStack l).stack = l := rfl
@[simp] theorem setStack_dt (l : List Addr) : (s.setStack l).dt = s.dt := rfl
@[simp] theorem setStack_st (l : List Addr) : (s.setStack l).st = s.st := rfl
@[simp] theorem setStack_key (l : List Addr) : (s.setStack l).key = s.key := rfl
@[simp] theorem setStack_fb (l : List Addr) : (s.setStack l).fb = s.fb := rfl
@[simp] theorem setStack_mem (l : List Addr) : (s.setStack l).mem = s.mem := rfl
@[simp] theorem setStack_cs (l : List Addr) : (s.setStack l).cs = s.cs := rfl
@[simp] theorem setStack_params (l : List Addr) : (s.setStack l).params = s.params := rfl
@[simp] theorem setStack_draws (l : List Addr) : (s.setStack l).draws = s.draws := rfl
@[simp] theorem setStack_schedule (l : List Addr) : (s.setStack l).schedule = s.schedule := rfl

@[simp] theorem setDt_v (b : Byte) : (s.setDt b).v = s.v := rfl
@[simp] theorem setDt_i (b : Byte) : (s.setDt b).i = s.i := rfl
@[simp] theorem setDt_pc (b : Byte) : (s.setDt b).pc = s.pc := rfl
@[simp] theorem setDt_stack (b : Byte) : (s.setDt b).stack = s.stack := rfl
@[simp] theorem setDt_dt (b : Byte) : (s.setDt b).dt = b := rfl
@[simp] theorem setDt_st (b : Byte) : (s.setDt b).st = s.st := rfl
@[simp] theorem setDt_key (b : Byte) : (s.setDt b).key = s.key := rfl
@[simp] theorem setDt_fb (b : Byte) : (s.setDt b).fb = s.fb := rfl
@[simp] theorem setDt_mem (b : Byte) : (s.setDt b).mem = s.mem := rfl
@[simp] theorem setDt_cs (b : Byte) : (s.setDt b).cs = s.cs := rfl
@[simp] theorem setDt_params (b : Byte) : (s.setDt b).params = s.params := rfl
@[simp] theorem setDt_draws (b : Byte) : (s.setDt b).draws = s.draws := rfl
@[simp] theorem setDt_schedule (b : Byte) : (s.setDt b).schedule = s.schedule := rfl

@[simp] theorem setSt_v (b : Byte) : (s.setSt b).v = s.v := rfl
@[simp] theorem setSt_i (b : Byte) : (s.setSt b).i = s.i := rfl
@[simp] theorem setSt_pc (b : Byte) : (s.setSt b).pc = s.pc := rfl
@[simp] theorem setSt_stack (b : Byte) : (s.setSt b).stack = s.stack := rfl
@[simp] theorem setSt_dt (b : Byte) : (s.setSt b).dt = s.dt := rfl
@[simp] theorem setSt_st (b : Byte) : (s.setSt b).st = b := rfl
@[simp] theorem setSt_key (b : Byte) : (s.setSt b).key = s.key := rfl
@[simp] theorem setSt_fb (b : Byte) : (s.setSt b).fb = s.fb := rfl
@[simp] theorem setSt_mem (b : Byte) : (s.setSt b).mem = s.mem := rfl
@[simp] theorem setSt_cs (b : Byte) : (s.setSt b).cs = s.cs := rfl
@[simp] theorem setSt_params (b : Byte) : (s.setSt b).params = s.params := rfl
@[simp] theorem setSt_draws (b : Byte) : (s.setSt b).draws = s.draws := rfl
@[simp] theorem setSt_schedule (b : Byte) : (s.setSt b).schedule = s.schedule := rfl

@[simp] theorem setKey_v (k : Nibble) (b : Bool) : (s.setKey k b).v = s.v := rfl
@[simp] theorem setKey_i (k : Nibble) (b : Bool) : (s.setKey k b).i = s.i := rfl
@[simp] theorem setKey_pc (k : Nibble) (b : Bool) : (s.setKey k b).pc = s.pc := rfl
@[simp] theorem setKey_stack (k : Nibble) (b : Bool) : (s.setKey k b).stack = s.stack := rfl
@[simp] theorem setKey_dt (k : Nibble) (b : Bool) : (s.setKey k b).dt = s.dt := rfl
@[simp] theorem setKey_st (k : Nibble) (b : Bool) : (s.setKey k b).st = s.st := rfl
@[simp] theorem setKey_key (k : Nibble) (b : Bool) : (s.setKey k b).key = s.key.set k.toNat b k.isLt := rfl
@[simp] theorem setKey_fb (k : Nibble) (b : Bool) : (s.setKey k b).fb = s.fb := rfl
@[simp] theorem setKey_mem (k : Nibble) (b : Bool) : (s.setKey k b).mem = s.mem := rfl
@[simp] theorem setKey_cs (k : Nibble) (b : Bool) : (s.setKey k b).cs = s.cs := rfl
@[simp] theorem setKey_params (k : Nibble) (b : Bool) : (s.setKey k b).params = s.params := rfl
@[simp] theorem setKey_draws (k : Nibble) (b : Bool) : (s.setKey k b).draws = s.draws := rfl
@[simp] theorem setKey_schedule (k : Nibble) (b : Bool) : (s.setKey k b).schedule = s.schedule := rfl

@[simp] theorem setFb_v (f : FrameBuffer) : (s.setFb f).v = s.v := rfl
@[simp] theorem setFb_i (f : FrameBuffer) : (s.setFb f).i = s.i := rfl
@[simp] theorem setFb_pc (f : FrameBuffer) : (s.setFb f).pc = s.pc := rfl
@[simp] theorem setFb_stack (f : FrameBuffer) : (s.setFb f).stack = s.stack := rfl
@[simp] theorem setFb_dt (f : FrameBuffer) : (s.setFb f).dt = s.dt := rfl
@[simp] theorem setFb_st (f : FrameBuffer) : (s.setFb f).st = s.st := rfl
@[simp] theorem setFb_key (f : FrameBuffer) : (s.setFb f).key = s.key := rfl
@[simp] theorem setFb_fb (f : FrameBuffer) : (s.setFb f).fb = f := rfl
@[simp] theorem setFb_mem (f : FrameBuffer) : (s.setFb f).mem = s.mem := rfl
@[simp] theorem setFb_cs (f : FrameBuffer) : (s.setFb f).cs = s.cs := rfl
@[simp] theorem setFb_params (f : FrameBuffer) : (s.setFb f).params = s.params := rfl
@[simp] theorem setFb_draws (f : FrameBuffer) : (s.setFb f).draws = s.draws := rfl
@[simp] theorem setFb_schedule (f : FrameBuffer) : (s.setFb f).schedule = s.schedule := rfl

@[simp] theorem setMem_v (m : Memory) : (s.setMem m).v = s.v := rfl
@[simp] theorem setMem_i (m : Memory) : (s.setMem m).i = s.i := rfl
@[simp] theorem setMem_pc (m : Memory) : (s.setMem m).pc = s.pc := rfl
@[simp] theorem setMem_stack (m : Memory) : (s.setMem m).stack = s.stack := rfl
@[simp] theorem setMem_dt (m : Memory) : (s.setMem m).dt = s.dt := rfl
@[simp] theorem setMem_st (m : Memory) : (s.setMem m).st = s.st := rfl
@[simp] theorem setMem_key (m : Memory) : (s.setMem m).key = s.key := rfl
@[simp] theorem setMem_fb (m : Memory) : (s.setMem m).fb = s.fb := rfl
@[simp] theorem setMem_mem (m : Memory) : (s.setMem m).mem = m := rfl
@[simp] theorem setMem_cs (m : Memory) : (s.setMem m).cs = s.cs := rfl
@[simp] theorem setMem_params (m : Memory) : (s.setMem m).params = s.params := rfl
@[simp] theorem setMem_draws (m : Memory) : (s.setMem m).draws = s.draws := rfl
@[simp] theorem setMem_schedule (m : Memory) : (s.setMem m).schedule = s.schedule := rfl

@[simp] theorem setCs_v (c : ControlState) : (s.setCs c).v = s.v := rfl
@[simp] theorem setCs_i (c : ControlState) : (s.setCs c).i = s.i := rfl
@[simp] theorem setCs_pc (c : ControlState) : (s.setCs c).pc = s.pc := rfl
@[simp] theorem setCs_stack (c : ControlState) : (s.setCs c).stack = s.stack := rfl
@[simp] theorem setCs_dt (c : ControlState) : (s.setCs c).dt = s.dt := rfl
@[simp] theorem setCs_st (c : ControlState) : (s.setCs c).st = s.st := rfl
@[simp] theorem setCs_key (c : ControlState) : (s.setCs c).key = s.key := rfl
@[simp] theorem setCs_fb (c : ControlState) : (s.setCs c).fb = s.fb := rfl
@[simp] theorem setCs_mem (c : ControlState) : (s.setCs c).mem = s.mem := rfl
@[simp] theorem setCs_cs (c : ControlState) : (s.setCs c).cs = c := rfl
@[simp] theorem setCs_params (c : ControlState) : (s.setCs c).params = s.params := rfl
@[simp] theorem setCs_draws (c : ControlState) : (s.setCs c).draws = s.draws := rfl
@[simp] theorem setCs_schedule (c : ControlState) : (s.setCs c).schedule = s.schedule := rfl

@[simp] theorem setDraws_v (n : Nat) : (s.setDraws n).v = s.v := rfl
@[simp] theorem setDraws_i (n : Nat) : (s.setDraws n).i = s.i := rfl
@[simp] theorem setDraws_pc (n : Nat) : (s.setDraws n).pc = s.pc := rfl
@[simp] theorem setDraws_stack (n : Nat) : (s.setDraws n).stack = s.stack := rfl
@[simp] theorem setDraws_dt (n : Nat) : (s.setDraws n).dt = s.dt := rfl
@[simp] theorem setDraws_st (n : Nat) : (s.setDraws n).st = s.st := rfl
@[simp] theorem setDraws_key (n : Nat) : (s.setDraws n).key = s.key := rfl
@[simp] theorem setDraws_fb (n : Nat) : (s.setDraws n).fb = s.fb := rfl
@[simp] theorem setDraws_mem (n : Nat) : (s.setDraws n).mem = s.mem := rfl
@[simp] theorem setDraws_cs (n : Nat) : (s.setDraws n).cs = s.cs := rfl
@[simp] theorem setDraws_params (n : Nat) : (s.setDraws n).params = s.params := rfl
@[simp] theorem setDraws_draws (n : Nat) : (s.setDraws n).draws = n := rfl
@[simp] theorem setDraws_schedule (n : Nat) : (s.setDraws n).schedule = s.schedule := rfl

@[simp] theorem setSchedule_v (es : List Event) : (s.setSchedule es).v = s.v := rfl
@[simp] theorem setSchedule_i (es : List Event) : (s.setSchedule es).i = s.i := rfl
@[simp] theorem setSchedule_pc (es : List Event) : (s.setSchedule es).pc = s.pc := rfl
@[simp] theorem setSchedule_stack (es : List Event) : (s.setSchedule es).stack = s.stack := rfl
@[simp] theorem setSchedule_dt (es : List Event) : (s.setSchedule es).dt = s.dt := rfl
@[simp] theorem setSchedule_st (es : List Event) : (s.setSchedule es).st = s.st := rfl
@[simp] theorem setSchedule_key (es : List Event) : (s.setSchedule es).key = s.key := rfl
@[simp] theorem setSchedule_fb (es : List Event) : (s.setSchedule es).fb = s.fb := rfl
@[simp] theorem setSchedule_mem (es : List Event) : (s.setSchedule es).mem = s.mem := rfl
@[simp] theorem setSchedule_cs (es : List Event) : (s.setSchedule es).cs = s.cs := rfl
@[simp] theorem setSchedule_params (es : List Event) : (s.setSchedule es).params = s.params := rfl
@[simp] theorem setSchedule_draws (es : List Event) : (s.setSchedule es).draws = s.draws := rfl
@[simp] theorem setSchedule_schedule (es : List Event) : (s.setSchedule es).schedule = es := rfl

@[simp] theorem writeByte_v (a : Addr) (b : Byte) : (s.writeByte a b).v = s.v := rfl
@[simp] theorem writeByte_i (a : Addr) (b : Byte) : (s.writeByte a b).i = s.i := rfl
@[simp] theorem writeByte_pc (a : Addr) (b : Byte) : (s.writeByte a b).pc = s.pc := rfl
@[simp] theorem writeByte_stack (a : Addr) (b : Byte) : (s.writeByte a b).stack = s.stack := rfl
@[simp] theorem writeByte_dt (a : Addr) (b : Byte) : (s.writeByte a b).dt = s.dt := rfl
@[simp] theorem writeByte_st (a : Addr) (b : Byte) : (s.writeByte a b).st = s.st := rfl
@[simp] theorem writeByte_key (a : Addr) (b : Byte) : (s.writeByte a b).key = s.key := rfl
@[simp] theorem writeByte_fb (a : Addr) (b : Byte) : (s.writeByte a b).fb = s.fb := rfl
@[simp] theorem writeByte_mem (a : Addr) (b : Byte) : (s.writeByte a b).mem = s.mem.write a.toNat b := rfl
@[simp] theorem writeByte_cs (a : Addr) (b : Byte) : (s.writeByte a b).cs = s.cs := rfl
@[simp] theorem writeByte_params (a : Addr) (b : Byte) : (s.writeByte a b).params = s.params := rfl
@[simp] theorem writeByte_draws (a : Addr) (b : Byte) : (s.writeByte a b).draws = s.draws := rfl
@[simp] theorem writeByte_schedule (a : Addr) (b : Byte) : (s.writeByte a b).schedule = s.schedule := rfl

@[simp] theorem push_v (a : Addr) : (s.push a).v = s.v := rfl
@[simp] theorem push_i (a : Addr) : (s.push a).i = s.i := rfl
@[simp] theorem push_pc (a : Addr) : (s.push a).pc = s.pc := rfl
@[simp] theorem push_stack (a : Addr) : (s.push a).stack = s.stack ++ [a] := rfl
@[simp] theorem push_dt (a : Addr) : (s.push a).dt = s.dt := rfl
@[simp] theorem push_st (a : Addr) : (s.push a).st = s.st := rfl
@[simp] theorem push_key (a : Addr) : (s.push a).key = s.key := rfl
@[simp] theorem push_fb (a : Addr) : (s.push a).fb = s.fb := rfl
@[simp] theorem push_mem (a : Addr) : (s.push a).mem = s.mem := rfl
@[simp] theorem push_cs (a : Addr) : (s.push a).cs = s.cs := rfl
@[simp] theorem push_params (a : Addr) : (s.push a).params = s.params := rfl
@[simp] theorem push_draws (a : Addr) : (s.push a).draws = s.draws := rfl
@[simp] theorem push_schedule (a : Addr) : (s.push a).schedule = s.schedule := rfl

@[simp] theorem pop_v : (s.pop).v = s.v := rfl
@[simp] theorem pop_i : (s.pop).i = s.i := rfl
@[simp] theorem pop_pc : (s.pop).pc = s.pc := rfl
@[simp] theorem pop_stack : (s.pop).stack = s.stack.dropLast := rfl
@[simp] theorem pop_dt : (s.pop).dt = s.dt := rfl
@[simp] theorem pop_st : (s.pop).st = s.st := rfl
@[simp] theorem pop_key : (s.pop).key = s.key := rfl
@[simp] theorem pop_fb : (s.pop).fb = s.fb := rfl
@[simp] theorem pop_mem : (s.pop).mem = s.mem := rfl
@[simp] theorem pop_cs : (s.pop).cs = s.cs := rfl
@[simp] theorem pop_params : (s.pop).params = s.params := rfl
@[simp] theorem pop_draws : (s.pop).draws = s.draws := rfl
@[simp] theorem pop_schedule : (s.pop).schedule = s.schedule := rfl

/-! Reads through an accessor after an update of something else. -/

@[simp] theorem keyDown_setReg (x : RegIdx) (b : Byte) (l : Nibble) : (s.setReg x b).keyDown l = s.keyDown l := rfl
@[simp] theorem readByte_setReg (x : RegIdx) (b : Byte) (c : Addr) : (s.setReg x b).readByte c = s.readByte c := rfl
@[simp] theorem pixel_setReg (x : RegIdx) (b : Byte) (r : Fin 32) (d : Fin 64) : (s.setReg x b).pixel r d = s.pixel r d := rfl
@[simp] theorem operandAddr_setReg (x : RegIdx) (b : Byte) (j : Nat) : (s.setReg x b).operandAddr j = s.operandAddr j := rfl
@[simp] theorem reg_setI (a : Addr) (y : RegIdx) : (s.setI a).reg y = s.reg y := rfl
@[simp] theorem keyDown_setI (a : Addr) (l : Nibble) : (s.setI a).keyDown l = s.keyDown l := rfl
@[simp] theorem readByte_setI (a : Addr) (c : Addr) : (s.setI a).readByte c = s.readByte c := rfl
@[simp] theorem pixel_setI (a : Addr) (r : Fin 32) (d : Fin 64) : (s.setI a).pixel r d = s.pixel r d := rfl
@[simp] theorem reg_setPc (a : Addr) (y : RegIdx) : (s.setPc a).reg y = s.reg y := rfl
@[simp] theorem keyDown_setPc (a : Addr) (l : Nibble) : (s.setPc a).keyDown l = s.keyDown l := rfl
@[simp] theorem readByte_setPc (a : Addr) (c : Addr) : (s.setPc a).readByte c = s.readByte c := rfl
@[simp] theorem pixel_setPc (a : Addr) (r : Fin 32) (d : Fin 64) : (s.setPc a).pixel r d = s.pixel r d := rfl
@[simp] theorem operandAddr_setPc (a : Addr) (j : Nat) : (s.setPc a).operandAddr j = s.operandAddr j := rfl
@[simp] theorem reg_setStack (l : List Addr) (y : RegIdx) : (s.setStack l).reg y = s.reg y := rfl
@[simp] theorem keyDown_setStack (l : List Addr) (k : Nibble) : (s.setStack l).keyDown k = s.keyDown k := rfl
@[simp] theorem readByte_setStack (l : List Addr) (c : Addr) : (s.setStack l).readByte c = s.readByte c := rfl
@[simp] theorem pixel_setStack (l : List Addr) (r : Fin 32) (d : Fin 64) : (s.setStack l).pixel r d = s.pixel r d := rfl
@[simp] theorem operandAddr_setStack (l : List Addr) (j : Nat) : (s.setStack l).operandAddr j = s.operandAddr j := rfl
@[simp] theorem reg_setDt (b : Byte) (y : RegIdx) : (s.setDt b).reg y = s.reg y := rfl
@[simp] theorem keyDown_setDt (b : Byte) (l : Nibble) : (s.setDt b).keyDown l = s.keyDown l := rfl
@[simp] theorem readByte_setDt (b : Byte) (c : Addr) : (s.setDt b).readByte c = s.readByte c := rfl
@[simp] theorem pixel_setDt (b : Byte) (r : Fin 32) (d : Fin 64) : (s.setDt b).pixel r d = s.pixel r d := rfl
@[simp] theorem operandAddr_setDt (b : Byte) (j : Nat) : (s.setDt b).operandAddr j = s.operandAddr j := rfl
@[simp] theorem reg_setSt (b : Byte) (y : RegIdx) : (s.setSt b).reg y = s.reg y := rfl
@[simp] theorem keyDown_setSt (b : Byte) (l : Nibble) : (s.setSt b).keyDown l = s.keyDown l := rfl
@[simp] theorem readByte_setSt (b : Byte) (c : Addr) : (s.setSt b).readByte c = s.readByte c := rfl
@[simp] theorem pixel_setSt (b : Byte) (r : Fin 32) (d : Fin 64) : (s.setSt b).pixel r d = s.pixel r d := rfl
@[simp] theorem operandAddr_setSt (b : Byte) (j : Nat) : (s.setSt b).operandAddr j = s.operandAddr j := rfl
@[simp] theorem reg_setKey (k : Nibble) (b : Bool) (y : RegIdx) : (s.setKey k b).reg y = s.reg y := rfl
@[simp] theorem readByte_setKey (k : Nibble) (b : Bool) (c : Addr) : (s.setKey k b).readByte c = s.readByte c := rfl
@[simp] theorem pixel_setKey (k : Nibble) (b : Bool) (r : Fin 32) (d : Fin 64) : (s.setKey k b).pixel r d = s.pixel r d := rfl
@[simp] theorem operandAddr_setKey (k : Nibble) (b : Bool) (j : Nat) : (s.setKey k b).operandAddr j = s.operandAddr j := rfl
@[simp] theorem reg_setFb (f : FrameBuffer) (y : RegIdx) : (s.setFb f).reg y = s.reg y := rfl
@[simp] theorem keyDown_setFb (f : FrameBuffer) (l : Nibble) : (s.setFb f).keyDown l = s.keyDown l := rfl
@[simp] theorem readByte_setFb (f : FrameBuffer) (c : Addr) : (s.setFb f).readByte c = s.readByte c := rfl
@[simp] theorem operandAddr_setFb (f : FrameBuffer) (j : Nat) : (s.setFb f).operandAddr j = s.operandAddr j := rfl
@[simp] theorem reg_setMem (m : Memory) (y : RegIdx) : (s.setMem m).reg y = s.reg y := rfl
@[simp] theorem keyDown_setMem (m : Memory) (l : Nibble) : (s.setMem m).keyDown l = s.keyDown l := rfl
@[simp] theorem pixel_setMem (m : Memory) (r : Fin 32) (d : Fin 64) : (s.setMem m).pixel r d = s.pixel r d := rfl
@[simp] theorem operandAddr_setMem (m : Memory) (j : Nat) : (s.setMem m).operandAddr j = s.operandAddr j := rfl
@[simp] theorem reg_setCs (c : ControlState) (y : RegIdx) : (s.setCs c).reg y = s.reg y := rfl
@[simp] theorem keyDown_setCs (c : ControlState) (l : Nibble) : (s.setCs c).keyDown l = s.keyDown l := rfl
@[simp] theorem readByte_setCs (c : ControlState) (a : Addr) : (s.setCs c).readByte a = s.readByte a := rfl
@[simp] theorem pixel_setCs (c : ControlState) (r : Fin 32) (d : Fin 64) : (s.setCs c).pixel r d = s.pixel r d := rfl
@[simp] theorem operandAddr_setCs (c : ControlState) (j : Nat) : (s.setCs c).operandAddr j = s.operandAddr j := rfl
@[simp] theorem reg_setDraws (n : Nat) (y : RegIdx) : (s.setDraws n).reg y = s.reg y := rfl
@[simp] theorem keyDown_setDraws (n : Nat) (l : Nibble) : (s.setDraws n).keyDown l = s.keyDown l := rfl
@[simp] theorem readByte_setDraws (n : Nat) (c : Addr) : (s.setDraws n).readByte c = s.readByte c := rfl
@[simp] theorem pixel_setDraws (n : Nat) (r : Fin 32) (d : Fin 64) : (s.setDraws n).pixel r d = s.pixel r d := rfl
@[simp] theorem operandAddr_setDraws (n : Nat) (j : Nat) : (s.setDraws n).operandAddr j = s.operandAddr j := rfl
@[simp] theorem reg_setSchedule (es : List Event) (y : RegIdx) : (s.setSchedule es).reg y = s.reg y := rfl
@[simp] theorem keyDown_setSchedule (es : List Event) (l : Nibble) : (s.setSchedule es).keyDown l = s.keyDown l := rfl
@[simp] theorem readByte_setSchedule (es : List Event) (c : Addr) : (s.setSchedule es).readByte c = s.readByte c := rfl
@[simp] theorem pixel_setSchedule (es : List Event) (r : Fin 32) (d : Fin 64) : (s.setSchedule es).pixel r d = s.pixel r d := rfl
@[simp] theorem operandAddr_setSchedule (es : List Event) (j : Nat) : (s.setSchedule es).operandAddr j = s.operandAddr j := rfl

/-! Reads through the accessors. -/

@[simp] theorem reg_setReg_same (x : RegIdx) (b : Byte) : (s.setReg x b).reg x = b := by
  simp [State.reg, State.setReg]

theorem reg_setReg_other {x y : RegIdx} (b : Byte) (h : y ≠ x) : (s.setReg x b).reg y = s.reg y := by
  have : x.toNat ≠ y.toNat := fun e => h (BitVec.eq_of_toNat_eq e.symm)
  simp [State.reg, State.setReg, this]

theorem reg_congr {s t : State} (h : s.v = t.v) (x : RegIdx) : s.reg x = t.reg x := by simp [State.reg, h]

@[simp] theorem keyDown_setKey_same (k : Nibble) (b : Bool) : (s.setKey k b).keyDown k = b := by
  simp [State.keyDown, State.setKey]

theorem keyDown_setKey_other {k l : Nibble} (b : Bool) (h : l ≠ k) : (s.setKey k b).keyDown l = s.keyDown l := by
  have : k.toNat ≠ l.toNat := fun e => h (BitVec.eq_of_toNat_eq e.symm)
  simp [State.keyDown, State.setKey, this]

theorem readByte_congr {s t : State} (h : s.mem = t.mem) (a : Addr) : s.readByte a = t.readByte a := by
  simp [State.readByte, h]

end Sys2Proof.Machine
end

