-- ==== Sys2Proof/Laws/Memory.lean ====
section
/-! SUPPORT. Memory: a read after a write, and every operation keeps the canonical form. -/
namespace Sys2Proof.Machine

@[simp] theorem read_nil (a : Nat) : Memory.read [] a = resetByte a := rfl

theorem read_erase_same (m : Memory) (a : Nat) : (Memory.erase m a).read a = resetByte a := by
  induction m with
  | nil => rfl
  | cons c m ih =>
    obtain ⟨k, b⟩ := c
    by_cases h : k = a <;> simp [Memory.erase, Memory.read, h, ih]

theorem read_erase_other (m : Memory) {a b : Nat} (h : b ≠ a) : (Memory.erase m a).read b = m.read b := by
  induction m with
  | nil => rfl
  | cons c m ih =>
    obtain ⟨k, d⟩ := c
    by_cases hk : k = a
    · subst hk; simp [Memory.erase, Memory.read, ih, Ne.symm h]
    · simp [Memory.erase, hk, Memory.read, ih]

theorem read_insert_same (m : Memory) (a : Nat) (b : Byte) (h : ∀ c ∈ m, c.1 ≠ a) : (Memory.insert m a b).read a = b := by
  induction m with
  | nil => simp [Memory.insert, Memory.read]
  | cons c m ih =>
    obtain ⟨k, d⟩ := c
    have hk : k ≠ a := h (k, d) (by simp)
    have ih := ih fun c hc => h c (by simp [hc])
    by_cases hl : a < k <;> simp [Memory.insert, Memory.read, hl, hk, ih]

theorem read_insert_other (m : Memory) {a b : Nat} (v : Byte) (h : b ≠ a) : (Memory.insert m a v).read b = m.read b := by
  induction m with
  | nil => simp [Memory.insert, Memory.read, Ne.symm h]
  | cons c m ih =>
    obtain ⟨k, d⟩ := c
    by_cases hl : a < k
    · simp [Memory.insert, Memory.read, hl, Ne.symm h]
    · simp [Memory.insert, hl, Memory.read, ih]

theorem ne_of_mem_erase (m : Memory) (a : Nat) : ∀ c ∈ Memory.erase m a, c.1 ≠ a := by
  induction m with
  | nil => simp [Memory.erase]
  | cons c m ih =>
    obtain ⟨k, d⟩ := c
    by_cases h : k = a
    · simpa [Memory.erase, h] using ih
    · simpa [Memory.erase, h] using ih

theorem mem_of_mem_erase (m : Memory) (a : Nat) : ∀ c ∈ Memory.erase m a, c ∈ m := by
  induction m with
  | nil => simp [Memory.erase]
  | cons c m ih =>
    obtain ⟨k, d⟩ := c
    intro c hc
    by_cases h : k = a
    · exact List.mem_cons_of_mem _ (ih c (by simpa [Memory.erase, h] using hc))
    · rcases List.mem_cons.1 (by simpa [Memory.erase, h] using hc) with rfl | hc
      · simp
      · exact List.mem_cons_of_mem _ (ih c hc)

/-- A read after a write to the same address gives the byte written. -/
@[simp] theorem read_write_same (m : Memory) (a : Nat) (b : Byte) : (m.write a b).read a = b := by
  unfold Memory.write
  split
  · rename_i h; rw [read_erase_same, h]
  · exact read_insert_same _ _ _ (ne_of_mem_erase m a)

/-- A write leaves every other address alone. -/
theorem read_write_other (m : Memory) {a b : Nat} (v : Byte) (h : b ≠ a) : (m.write a v).read b = m.read b := by
  unfold Memory.write
  split
  · exact read_erase_other m h
  · rw [read_insert_other _ _ h, read_erase_other m h]

/-! ## The canonical form -/

theorem wf_cons (k : Nat) (b : Byte) (m : Memory) :
    Memory.wf ((k, b) :: m) = true ↔ k < 4096 ∧ b ≠ resetByte k ∧ (∀ c ∈ m, k < c.1) ∧ m.wf = true := by
  simp [Memory.wf, and_assoc]

theorem erase_wf (m : Memory) (a : Nat) (h : m.wf = true) : (Memory.erase m a).wf = true := by
  induction m with
  | nil => rfl
  | cons c m ih =>
    obtain ⟨k, d⟩ := c
    obtain ⟨hk, hd, hm, hw⟩ := (wf_cons ..).1 h
    by_cases hka : k = a
    · simpa [Memory.erase, hka] using ih hw
    · simp only [Memory.erase, hka, if_false]
      exact (wf_cons ..).2 ⟨hk, hd, fun c hc => hm c (mem_of_mem_erase m a c hc), ih hw⟩

theorem mem_insert (m : Memory) (a : Nat) (b : Byte) : ∀ c ∈ Memory.insert m a b, c = (a, b) ∨ c ∈ m := by
  induction m with
  | nil => simp [Memory.insert]
  | cons c m ih =>
    obtain ⟨k, d⟩ := c
    intro c hc
    by_cases h : a < k
    · simpa [Memory.insert, h] using hc
    · rcases List.mem_cons.1 (by simpa [Memory.insert, h] using hc) with rfl | hc
      · simp
      · rcases ih c hc with h | h <;> simp [h]

theorem insert_wf (m : Memory) (a : Nat) (b : Byte) (h : m.wf = true) (ha : a < 4096) (hb : b ≠ resetByte a)
    (hn : ∀ c ∈ m, c.1 ≠ a) : (Memory.insert m a b).wf = true := by
  induction m with
  | nil => simp [Memory.insert, Memory.wf, ha, hb]
  | cons c m ih =>
    obtain ⟨k, d⟩ := c
    obtain ⟨hk, hd, hm, hw⟩ := (wf_cons ..).1 h
    have hka : k ≠ a := hn (k, d) (by simp)
    by_cases hl : a < k
    · simp only [Memory.insert, hl, if_true]
      refine (wf_cons ..).2 ⟨ha, hb, fun c hc => ?_, h⟩
      rcases List.mem_cons.1 hc with rfl | hc
      · exact hl
      · exact Nat.lt_trans hl (hm c hc)
    · simp only [Memory.insert, hl, if_false]
      refine (wf_cons ..).2 ⟨hk, hd, fun c hc => ?_, ih hw fun c hc => hn c (by simp [hc])⟩
      rcases mem_insert m a b c hc with rfl | hc
      · exact Nat.lt_of_le_of_ne (Nat.le_of_not_lt hl) hka
      · exact hm c hc

/-- A store within the address space keeps the canonical form. -/
theorem write_wf (m : Memory) (a : Nat) (b : Byte) (h : m.wf = true) (ha : a < 4096) : (m.write a b).wf = true := by
  unfold Memory.write
  split
  · exact erase_wf m a h
  · rename_i hb
    exact insert_wf _ a b (erase_wf m a h) ha hb (ne_of_mem_erase m a)

theorem writeFrom_wf (bytes : List Byte) : ∀ (m : Memory) (base : Nat), m.wf = true → base + bytes.length ≤ 4096 →
    (m.writeFrom base bytes).wf = true := by
  induction bytes with
  | nil => intro m base h _; exact h
  | cons b bytes ih =>
    intro m base h hl
    simp only [List.length_cons] at hl
    exact ih _ _ (write_wf m base b h (by omega)) (by omega)

/-- An address outside the bytes loaded reads as before. -/
theorem read_writeFrom_other (bytes : List Byte) : ∀ (m : Memory) (base a : Nat),
    (a < base ∨ base + bytes.length ≤ a) → (m.writeFrom base bytes).read a = m.read a := by
  induction bytes with
  | nil => intros; rfl
  | cons b bytes ih =>
    intro m base a h
    simp only [List.length_cons] at h
    rw [Memory.writeFrom, ih _ _ _ (by omega), read_write_other _ _ (by omega)]

/-- Byte `j` of the bytes loaded stands at `base + j`. -/
theorem read_writeFrom (bytes : List Byte) : ∀ (m : Memory) (base j : Nat) (h : j < bytes.length),
    (m.writeFrom base bytes).read (base + j) = bytes[j] := by
  induction bytes with
  | nil => intro _ _ _ h; exact absurd h (by simp)
  | cons b bytes ih =>
    intro m base j h
    cases j with
    | zero => rw [Memory.writeFrom, Nat.add_zero, read_writeFrom_other _ _ _ _ (by omega)]; simp
    | succ j =>
      rw [Memory.writeFrom, show base + (j + 1) = base + 1 + j by omega]
      simpa using ih (m.write base b) (base + 1) j (by simpa using h)

/-! ## Reads of State after stores -/

@[simp] theorem readByte_writeByte_same (s : State) (a : Addr) (b : Byte) : (s.writeByte a b).readByte a = b := by
  simp [State.readByte]

theorem readByte_writeByte_other (s : State) {a c : Addr} (b : Byte) (h : c ≠ a) :
    (s.writeByte a b).readByte c = s.readByte c := by
  have : c.toNat ≠ a.toNat := fun e => h (BitVec.eq_of_toNat_eq e)
  simp [State.readByte, read_write_other _ _ this]

theorem writeByte_wf (s : State) (a : Addr) (b : Byte) (h : s.mem.wf = true) : (s.writeByte a b).mem.wf = true := by
  simpa using write_wf _ _ b h a.isLt

/-- What storing bytes can do: it changes memory alone, keeps its form, and leaves every address it is not given. -/
theorem storeBytes_spec (as : List Addr) : ∀ (bs : List Byte) (s : State),
    s.storeBytes as bs = s.setMem (s.storeBytes as bs).mem ∧
    (s.mem.wf = true → (s.storeBytes as bs).mem.wf = true) ∧
    (∀ a, a ∉ as → (s.storeBytes as bs).readByte a = s.readByte a) := by
  induction as with
  | nil => intro bs s; exact ⟨rfl, fun h => h, fun _ _ => rfl⟩
  | cons a as ih =>
    intro bs s
    cases bs with
    | nil => exact ⟨rfl, fun h => h, fun _ _ => rfl⟩
    | cons b bs =>
      obtain ⟨h1, h2, h3⟩ := ih bs (s.writeByte a b)
      refine ⟨?_, fun h => h2 (writeByte_wf s a b h), fun c hc => ?_⟩
      · rw [State.storeBytes, h1]; rfl
      · rw [State.storeBytes, h3 c (fun h => hc (by simp [h])), readByte_writeByte_other _ _ (fun h => hc (by simp [h]))]

/-- Bytes stored at distinct addresses are read back. -/
theorem readByte_storeBytes (as : List Addr) : ∀ (bs : List Byte) (s : State) (j : Nat) (ha : j < as.length)
    (hb : j < bs.length), as.Nodup → (s.storeBytes as bs).readByte as[j] = bs[j] := by
  induction as with
  | nil => intro _ _ _ ha; exact absurd ha (by simp)
  | cons a as ih =>
    intro bs s j ha hb hn
    obtain ⟨hna, hn⟩ := List.nodup_cons.1 hn
    cases bs with
    | nil => exact absurd hb (by simp)
    | cons b bs =>
      cases j with
      | zero => simp [State.storeBytes, (storeBytes_spec as bs (s.writeByte a b)).2.2 a hna]
      | succ j => simpa [State.storeBytes] using ih bs _ j (by simpa using ha) (by simpa using hb) hn

end Sys2Proof.Machine
end

