-- ==== Sys2Proof/Laws/Ops.lean ====
section
/-! SUPPORT. What the shared operations over addresses and PC can do. -/
namespace Sys2Proof.Machine

theorem a12_ok {p : AddrPolicy} {v : Nat} (h : AddrOk p v) : a12 p v = .ok (BitVec.ofNat 12 v) := by
  cases p with
  | wrap => rfl
  | fault => have : v ≤ 4095 := by simpa [AddrOk] using h
             simp [a12, this]

theorem a12_error {v : Nat} (h : 4095 < v) : a12 .fault v = .error (.outOfRange v) := by
  simp [a12, Nat.not_le.2 h]

/-- What `A12` answers: the reduced address, or `OutOfRange` under `FAULT`. -/
theorem a12_cases (p : AddrPolicy) (v : Nat) :
    (AddrOk p v ∧ a12 p v = .ok (BitVec.ofNat 12 v)) ∨
    (p = .fault ∧ 4095 < v ∧ a12 p v = .error (.outOfRange v)) := by
  by_cases h : AddrOk p v
  · exact .inl ⟨h, a12_ok h⟩
  · cases p with
    | wrap => exact absurd (.inl rfl) h
    | fault =>
      have hv : 4095 < v := by simpa [AddrOk] using h
      exact .inr ⟨rfl, hv, a12_error hv⟩

theorem withAddr_ok {s : State} {v : Nat} (k : Addr → Result) (h : AddrOk s.params.addrPolicy v) :
    withAddr s v k = k (BitVec.ofNat 12 v) := by simp [withAddr, a12_ok h]

theorem withAddr_error {s : State} {v : Nat} (k : Addr → Result) (hp : s.params.addrPolicy = .fault) (h : 4095 < v) :
    withAddr s v k = .fault (.outOfRange v) := by simp [withAddr, hp, a12_error h, raise]

/-- `withAddr` goes on with the reduced address, or raises `OutOfRange` under `FAULT`. -/
theorem withAddr_cases (s : State) (v : Nat) (k : Addr → Result) :
    (AddrOk s.params.addrPolicy v ∧ withAddr s v k = k (BitVec.ofNat 12 v)) ∨
    (s.params.addrPolicy = .fault ∧ 4095 < v ∧ withAddr s v k = .fault (.outOfRange v)) := by
  rcases a12_cases s.params.addrPolicy v with ⟨h, _⟩ | ⟨hp, hv, _⟩
  · exact .inl ⟨h, withAddr_ok k h⟩
  · exact .inr ⟨hp, hv, withAddr_error k hp hv⟩

theorem goto_ok {s : State} {v : Nat} (h : AddrOk s.params.addrPolicy v) :
    goto s v = .next (s.setPc (BitVec.ofNat 12 v)) := withAddr_ok _ h

/-- `goto` sets PC alone, or raises `OutOfRange` under `FAULT`. -/
theorem goto_cases (s : State) (v : Nat) :
    (AddrOk s.params.addrPolicy v ∧ goto s v = .next (s.setPc (BitVec.ofNat 12 v))) ∨
    (s.params.addrPolicy = .fault ∧ 4095 < v ∧ goto s v = .fault (.outOfRange v)) := withAddr_cases s v _

theorem ofNat_add_toNat (a : Addr) (n : Nat) : BitVec.ofNat 12 (a.toNat + n) = a + BitVec.ofNat 12 n := by
  apply BitVec.eq_of_toNat_eq; simp

theorem advance_ok {s : State} (h : s.CanAdvance) : advance s = .next (s.setPc (s.pc + 2#12)) := by
  rw [advance, goto_ok h, ofNat_add_toNat]

theorem advanceSkip_ok {s : State} (h : s.CanSkip) : advanceSkip s = .next (s.setPc (s.pc + 4#12)) := by
  rw [advanceSkip, goto_ok h, ofNat_add_toNat]

/-- The normal advance sets PC alone, or raises `OutOfRange` under `FAULT`. -/
theorem advance_cases (s : State) :
    (s.CanAdvance ∧ advance s = .next (s.setPc (s.pc + 2#12))) ∨
    (s.params.addrPolicy = .fault ∧ 4095 < s.pc.toNat + 2 ∧ advance s = .fault (.outOfRange (s.pc.toNat + 2))) := by
  rcases goto_cases s (s.pc.toNat + 2) with ⟨h, _⟩ | h
  · exact .inl ⟨h, advance_ok h⟩
  · exact .inr h

theorem advanceSkip_cases (s : State) :
    (s.CanSkip ∧ advanceSkip s = .next (s.setPc (s.pc + 4#12))) ∨
    (s.params.addrPolicy = .fault ∧ 4095 < s.pc.toNat + 4 ∧ advanceSkip s = .fault (.outOfRange (s.pc.toNat + 4))) := by
  rcases goto_cases s (s.pc.toNat + 4) with ⟨h, _⟩ | h
  · exact .inl ⟨h, advanceSkip_ok h⟩
  · exact .inr h

/-! ## Inversion: what a next state of a shared operation is -/

theorem goto_next {s t : State} {v : Nat} (h : goto s v = .next t) : t = s.setPc (BitVec.ofNat 12 v) := by
  rcases goto_cases s v with ⟨_, e⟩ | ⟨_, _, e⟩ <;> rw [e] at h <;> cases h
  rfl

theorem advance_next {s t : State} (h : advance s = .next t) : t = s.setPc (s.pc + 2#12) := by
  rcases advance_cases s with ⟨_, e⟩ | ⟨_, _, e⟩ <;> rw [e] at h <;> cases h
  rfl

theorem advanceSkip_next {s t : State} (h : advanceSkip s = .next t) : t = s.setPc (s.pc + 4#12) := by
  rcases advanceSkip_cases s with ⟨_, e⟩ | ⟨_, _, e⟩ <;> rw [e] at h <;> cases h
  rfl

theorem advance_error {s : State} (hp : s.params.addrPolicy = .fault) (h : 4094 ≤ s.pc.toNat) :
    advance s = .fault (.outOfRange (s.pc.toNat + 2)) := withAddr_error _ hp (by omega)

theorem advanceSkip_error {s : State} (hp : s.params.addrPolicy = .fault) (h : 4092 ≤ s.pc.toNat) :
    advanceSkip s = .fault (.outOfRange (s.pc.toNat + 4)) := withAddr_error _ hp (by omega)

theorem withAddr_next {s t : State} {v : Nat} {k : Addr → Result} (h : withAddr s v k = .next t) :
    k (BitVec.ofNat 12 v) = .next t := by
  rcases withAddr_cases s v k with ⟨_, e⟩ | ⟨_, _, e⟩ <;> rw [e] at h
  · exact h
  · cases h

/-- What a fault of `withAddr` is: its own `OutOfRange`, or a fault of what follows. -/
theorem withAddr_fault {s : State} {v : Nat} {k : Addr → Result} {f : Fault} (h : withAddr s v k = .fault f) :
    (f = .outOfRange v ∧ 4095 < v ∧ s.params.addrPolicy = .fault) ∨ k (BitVec.ofNat 12 v) = .fault f := by
  rcases withAddr_cases s v k with ⟨_, e⟩ | ⟨hp, hv, e⟩ <;> rw [e] at h
  · exact .inr h
  · cases h; exact .inl ⟨rfl, hv, hp⟩

theorem goto_fault {s : State} {v : Nat} {f : Fault} (h : goto s v = .fault f) :
    ∃ v, f = .outOfRange v ∧ 4095 < v ∧ s.params.addrPolicy = .fault := by
  rcases withAddr_fault h with h | h
  · exact ⟨v, h⟩
  · cases h

/-! ## Operand addresses -/

theorem addrRange_ok {p : AddrPolicy} : ∀ {base n : Nat}, RangeOk p base n →
    addrRange p base n = .ok ((List.range n).map fun k => BitVec.ofNat 12 (base + k)) := by
  intro base n
  induction n generalizing base with
  | zero => intro _; rfl
  | succ n ih =>
    intro h
    have h0 : AddrOk p base := h.imp_right (by omega)
    have h1 : RangeOk p (base + 1) n := h.imp_right (by omega)
    simp only [addrRange, a12_ok h0, ih h1, List.range_succ_eq_map, List.map_cons, List.map_map]
    simp [Function.comp_def, Nat.add_assoc, Nat.add_comm 1]

theorem addrRange_error : ∀ {base n : Nat}, base ≤ 4096 → 4096 < base + n →
    addrRange .fault base n = .error (.outOfRange 4096) := by
  intro base n
  induction n generalizing base with
  | zero => intro h1 h2; omega
  | succ n ih =>
    intro h1 h2
    rcases Nat.eq_or_lt_of_le h1 with rfl | h
    · simp [addrRange, a12_error]
    · simp only [addrRange, a12_ok (p := .fault) (.inr (by omega : base ≤ 4095)), ih (base := base + 1) (by omega) (by omega)]

/-- The addresses of the operand bytes. -/
theorem operandAddrs_eq (s : State) (n : Nat) :
    ((List.range n).map fun k => BitVec.ofNat 12 (s.i.toNat + k)) = (List.range n).map s.operandAddr := by
  simp [State.operandAddr, ofNat_add_toNat]

theorem withOperands_ok {s : State} {n : Nat} (k : List Addr → Result) (h : s.OperandsOk n) :
    withOperands s n k = k ((List.range n).map s.operandAddr) := by
  simp only [withOperands, addrRange_ok h, operandAddrs_eq]

/-- `withOperands` goes on with the operand addresses, or raises `OutOfRange(4096)` under `FAULT`: the first address
past the end is always 4096, since `I` itself is an address. -/
theorem withOperands_cases (s : State) (n : Nat) (k : List Addr → Result) :
    (s.OperandsOk n ∧ withOperands s n k = k ((List.range n).map s.operandAddr)) ∨
    (s.params.addrPolicy = .fault ∧ 4096 < s.i.toNat + n ∧ withOperands s n k = .fault (.outOfRange 4096)) := by
  by_cases h : s.OperandsOk n
  · exact .inl ⟨h, withOperands_ok k h⟩
  · right
    have hp : s.params.addrPolicy = .fault := by
      cases hp : s.params.addrPolicy with
      | wrap => exact absurd (.inl hp) h
      | fault => rfl
    have hn : 4096 < s.i.toNat + n := by
      rcases Nat.lt_or_ge 4096 (s.i.toNat + n) with h' | h'
      · exact h'
      · exact absurd (.inr h') h
    refine ⟨hp, hn, ?_⟩
    simp [withOperands, hp, addrRange_error (Nat.le_of_lt s.i.isLt) hn, raise]

theorem withOperands_next {s t : State} {n : Nat} {k : List Addr → Result} (h : withOperands s n k = .next t) :
    k ((List.range n).map s.operandAddr) = .next t := by
  rcases withOperands_cases s n k with ⟨_, e⟩ | ⟨_, _, e⟩ <;> rw [e] at h
  · exact h
  · cases h

theorem withOperands_fault {s : State} {n : Nat} {k : List Addr → Result} {f : Fault}
    (h : withOperands s n k = .fault f) :
    (∃ v, f = .outOfRange v ∧ 4095 < v ∧ s.params.addrPolicy = .fault) ∨
      k ((List.range n).map s.operandAddr) = .fault f := by
  rcases withOperands_cases s n k with ⟨_, e⟩ | ⟨hp, _, e⟩ <;> rw [e] at h
  · exact .inr h
  · cases h; exact .inl ⟨_, rfl, by omega, hp⟩

theorem operandAddr_injective (s : State) {j k : Nat} (hj : j < 4096) (hk : k < 4096)
    (h : s.operandAddr j = s.operandAddr k) : j = k := by
  have h := congrArg BitVec.toNat h
  simp only [State.operandAddr, BitVec.toNat_add, BitVec.toNat_ofNat] at h
  omega

theorem operandAddrs_nodup (s : State) {n : Nat} (hn : n ≤ 4096) : ((List.range n).map s.operandAddr).Nodup := by
  rw [List.Nodup, List.pairwise_map]
  exact List.Pairwise.imp_of_mem (fun {a b} ha hb hne h => hne (operandAddr_injective s
    (by have := List.mem_range.1 ha; omega) (by have := List.mem_range.1 hb; omega) h)) List.nodup_range

/-! ## Registers loaded from a list -/

/-- What loading registers can do: it changes `V` alone. -/
theorem loadRegs_frame (bs : List Byte) : ∀ (s : State) (j : Nat),
    s.loadRegs j bs = { s with v := (s.loadRegs j bs).v } := by
  induction bs with
  | nil => intros; rfl
  | cons b bs ih => intro s j; rw [State.loadRegs, ih]; rfl

/-- A register outside `j..j + length - 1` keeps its value, one inside holds its byte. -/
theorem reg_loadRegs (bs : List Byte) : ∀ (s : State) (j : Nat) (y : RegIdx), j + bs.length ≤ 16 →
    (s.loadRegs j bs).reg y = if j ≤ y.toNat ∧ y.toNat < j + bs.length then bs.getD (y.toNat - j) 0 else s.reg y := by
  induction bs with
  | nil => intro s j y h; rw [if_neg (by rw [List.length_nil]; omega)]; rfl
  | cons b bs ih =>
    intro s j y h
    simp only [List.length_cons] at h
    rw [State.loadRegs, ih _ _ _ (by omega)]
    by_cases hy : y.toNat = j
    · have : BitVec.ofNat 4 j = y := by
        apply BitVec.eq_of_toNat_eq; simp [← hy]
      subst hy
      rw [if_neg (by omega), if_pos (by simp), this]
      simp
    · have : y ≠ BitVec.ofNat 4 j := by
        intro e; apply hy; rw [e]; simp; omega
      rw [reg_setReg_other _ _ this]
      by_cases h1 : j + 1 ≤ y.toNat ∧ y.toNat < j + 1 + bs.length
      · have h2 : j ≤ y.toNat ∧ y.toNat < j + (b :: bs).length := by simp; omega
        rw [if_pos h1, if_pos h2, show y.toNat - j = (y.toNat - (j + 1)) + 1 by omega]
        simp
      · have h2 : ¬(j ≤ y.toNat ∧ y.toNat < j + (b :: bs).length) := by simp; omega
        rw [if_neg h1, if_neg h2]

theorem length_regsUpTo (s : State) (x : RegIdx) : (s.regsUpTo x).length = x.toNat + 1 := by
  have := x.isLt
  simp [State.regsUpTo]; omega

theorem getElem_regsUpTo (s : State) (x y : RegIdx) (h : y.toNat < (s.regsUpTo x).length) :
    (s.regsUpTo x)[y.toNat] = s.reg y := by
  simp [State.regsUpTo, State.reg]

/-! ## The stack depth -/

theorem stackFull_iff (d : StackDepth) (sp : Nat) : stackFull d sp = true ↔ ∃ n, d = .slots n ∧ sp = n + 1 := by
  cases sp with
  | zero => simp [stackFull]
  | succ n =>
    simp only [stackFull, beq_iff_eq]
    exact ⟨fun h => ⟨n, h, rfl⟩, fun ⟨m, h, e⟩ => by rw [h]; congr; omega⟩

theorem stackFits_push {d : StackDepth} {sp : Nat} (h : StackFits d sp) (hf : stackFull d sp = false) :
    StackFits d (sp + 1) := by
  cases d with
  | unbounded => trivial
  | slots n =>
    have : sp ≠ n + 1 := fun e => by
      rw [(stackFull_iff ..).2 ⟨n, rfl, e⟩] at hf; cases hf
    simp only [StackFits] at h ⊢
    omega

theorem stackFits_mono {d : StackDepth} {m n : Nat} (h : StackFits d n) (hm : m ≤ n) : StackFits d m := by
  cases d with
  | unbounded => trivial
  | slots k => simp only [StackFits] at h ⊢; omega

end Sys2Proof.Machine
end

