-- ==== Sys2Proof/Laws/Display.lean ====
section
/-! SUPPORT. What drawing a sprite can do, pixel by pixel. -/
namespace Sys2Proof.Machine

theorem plot_pixel (k : Canvas) (r r' : Fin 32) (c c' : Fin 64) (bit : Bool) :
    pixelAt (k.plot r c bit).fb r' c' = (pixelAt k.fb r' c' ^^ (decide (r = r' ∧ c = c') && bit)) := by
  by_cases hr : r = r'
  · subst hr
    by_cases hc : c = c'
    · subst hc; simp [Canvas.plot, pixelAt]
    · have : c.val ≠ c'.val := fun e => hc (Fin.ext e)
      simp [Canvas.plot, pixelAt, hc, this]
  · have : r.val ≠ r'.val := fun e => hr (Fin.ext e)
    simp [Canvas.plot, pixelAt, hr, this]

theorem plot_hit (k : Canvas) (r : Fin 32) (c : Fin 64) (bit : Bool) :
    (k.plot r c bit).hit = (k.hit || (bit && pixelAt k.fb r c)) := rfl

theorem spriteCol_injective (x0 : Nat) {i j : Nat} (hi : i < 64) (hj : j < 64) (h : spriteCol x0 i = spriteCol x0 j) :
    i = j := by
  have := congrArg Fin.val h
  simp [spriteCol, Fin.ofNat] at this
  omega

/-- Plotting bits at distinct columns of one row. -/
theorem foldPlot_spec (r : Fin 32) (x0 : Nat) (bit : Nat → Bool) (js : List Nat) :
    ∀ (k : Canvas), (∀ j ∈ js, j < 64) → js.Nodup →
    (∀ r' c', pixelAt (js.foldl (fun k j => k.plot r (spriteCol x0 j) (bit j)) k).fb r' c' =
      (pixelAt k.fb r' c' ^^ (decide (r = r') && js.any fun j => decide (spriteCol x0 j = c') && bit j))) ∧
    (js.foldl (fun k j => k.plot r (spriteCol x0 j) (bit j)) k).hit =
      (k.hit || js.any fun j => bit j && pixelAt k.fb r (spriteCol x0 j)) := by
  induction js with
  | nil => intro k _ _; simp
  | cons j js ih =>
    intro k hl hn
    obtain ⟨hj, hn⟩ := List.nodup_cons.1 hn
    obtain ⟨h1, h2⟩ := ih (k.plot r (spriteCol x0 j) (bit j)) (fun i hi => hl i (by simp [hi])) hn
    have apart : ∀ i ∈ js, spriteCol x0 j ≠ spriteCol x0 i := fun i hi e =>
      hj (spriteCol_injective x0 (hl j (by simp)) (hl i (by simp [hi])) e ▸ hi)
    constructor
    · intro r' c'
      rw [List.foldl_cons, h1, plot_pixel]
      by_cases hr : r = r'
      · by_cases hc : spriteCol x0 j = c'
        · have : (js.any fun i => decide (spriteCol x0 i = c') && bit i) = false := by
            simp only [List.any_eq_false]
            intro i hi
            simp [← hc, Ne.symm (apart i hi)]
          simp [hr, hc, this]
        · simp [hr, hc]
      · simp [hr]
    · rw [List.foldl_cons, h2, plot_hit, List.any_cons, Bool.or_assoc]
      congr 2
      rw [Bool.eq_iff_iff]
      simp only [List.any_eq_true, Bool.and_eq_true]
      refine exists_congr fun i => and_congr_right fun hi => and_congr_right fun _ => ?_
      rw [plot_pixel]
      simp [apart i hi]

/-- The distance of a column from the left edge of a sprite. -/
theorem spriteCol_eq_iff {x0 j : Nat} (hx : x0 < 64) (hj : j < 8) (c : Fin 64) :
    spriteCol x0 j = c ↔ (c.val + 64 - x0) % 64 = j := by
  have hc := c.isLt
  rw [Fin.ext_iff]
  simp only [spriteCol, Fin.ofNat]
  omega

theorem any_col (m : Bool) {x0 : Nat} (hx : x0 < 64) (b : Byte) (c : Fin 64) :
    ([0, 1, 2, 3, 4, 5, 6, 7].any fun j => decide (spriteCol x0 j = c) && spriteBit m b j) =
      (decide ((c.val + 64 - x0) % 64 < 8) && spriteBit m b ((c.val + 64 - x0) % 64)) := by
  rw [Bool.eq_iff_iff]
  simp only [List.any_eq_true, Bool.and_eq_true, decide_eq_true_eq]
  constructor
  · rintro ⟨j, hj, hc, hb⟩
    have hj : j < 8 := by simp at hj; omega
    rw [(spriteCol_eq_iff hx hj c).1 hc]
    exact ⟨hj, hb⟩
  · rintro ⟨hj, hb⟩
    exact ⟨_, by simp; omega, (spriteCol_eq_iff hx hj c).2 rfl, hb⟩

/-- What drawing one sprite byte can do. -/
theorem drawRow_spec (m : Bool) (r : Fin 32) {x0 : Nat} (hx : x0 < 64) (b : Byte) (k : Canvas) :
    (∀ r' c', pixelAt (drawRow m r x0 b k).fb r' c' =
      (pixelAt k.fb r' c' ^^ (decide (r = r') && spriteAt m x0 r.val [b] r' c'))) ∧
    ((drawRow m r x0 b k).hit = true ↔ k.hit = true ∨ ∃ c, spriteAt m x0 r.val [b] r c = true ∧ pixelAt k.fb r c = true) := by
  obtain ⟨h1, h2⟩ := foldPlot_spec r x0 (spriteBit m b) [0, 1, 2, 3, 4, 5, 6, 7] k (by decide) (by decide)
  constructor
  · intro r' c'
    rw [drawRow, h1, any_col m hx]
    by_cases hr : r = r'
    · subst hr; simp [spriteAt]
    · simp [hr]
  · rw [drawRow, h2]
    simp only [Bool.or_eq_true, List.any_eq_true, Bool.and_eq_true]
    refine or_congr_right ⟨?_, ?_⟩
    · rintro ⟨j, hj, hb, hp⟩
      have hj : j < 8 := by simp at hj; omega
      refine ⟨_, ?_, hp⟩
      simp [spriteAt, (spriteCol_eq_iff hx hj _).1 rfl, hj, hb]
    · rintro ⟨c, hs, hp⟩
      simp only [spriteAt, Nat.le_refl, decide_true, Bool.true_and, Bool.and_eq_true, decide_eq_true_eq, Nat.sub_self,
        List.getD_cons_zero] at hs
      refine ⟨_, by simp; omega, hs.2, ?_⟩
      simpa [(spriteCol_eq_iff hx hs.1 c).2 rfl] using hp

theorem spriteAt_cons (m : Bool) (x0 row : Nat) (b : Byte) (bs : List Byte) (r : Fin 32) (c : Fin 64) :
    spriteAt m x0 row (b :: bs) r c =
      if r.val = row then spriteAt m x0 row [b] r c else spriteAt m x0 (row + 1) bs r c := by
  split
  · rename_i h; simp [spriteAt, h]
  · rename_i h
    by_cases hl : row ≤ r.val
    · have h1 : row + 1 ≤ r.val := by omega
      have h2 : r.val - row = (r.val - (row + 1)) + 1 := by omega
      simp only [spriteAt, hl, h1, h2, List.getD_cons_succ]
    · have h1 : ¬ row + 1 ≤ r.val := by omega
      simp only [spriteAt, hl, h1]
      rfl

theorem spriteAt_nil (m : Bool) (x0 row : Nat) (r : Fin 32) (c : Fin 64) : spriteAt m x0 row [] r c = false := by
  simp [spriteAt, spriteBit]

theorem spriteAt_above {m : Bool} {x0 row : Nat} {bs : List Byte} {r : Fin 32} {c : Fin 64} (h : r.val < row) :
    spriteAt m x0 row bs r c = false := by
  have : ¬ row ≤ r.val := by omega
  simp [spriteAt, this]

/-- What drawing the rows of a sprite can do: each pixel is XORed with its sprite bit, and a hit is a pixel that was on
where the sprite bit is 1. -/
theorem drawRows_spec (m : Bool) {x0 : Nat} (hx : x0 < 64) (bs : List Byte) : ∀ (row : Nat) (k : Canvas),
    (∀ r c, pixelAt (drawRows m x0 row bs k).fb r c = (pixelAt k.fb r c ^^ spriteAt m x0 row bs r c)) ∧
    ((drawRows m x0 row bs k).hit = true ↔ k.hit = true ∨ ∃ r c, spriteAt m x0 row bs r c = true ∧ pixelAt k.fb r c = true) := by
  induction bs with
  | nil => intro row k; simp [drawRows, spriteAt_nil]
  | cons b bs ih =>
    intro row k
    rw [drawRows]
    split
    · rename_i hrow
      obtain ⟨h1, h2⟩ := ih (row + 1) (drawRow m ⟨row, hrow⟩ x0 b k)
      obtain ⟨d1, d2⟩ := drawRow_spec m ⟨row, hrow⟩ hx b k
      constructor
      · intro r c
        rw [h1, d1, spriteAt_cons m x0 row b bs]
        by_cases hr : r.val = row
        · have : (⟨row, hrow⟩ : Fin 32) = r := Fin.ext hr.symm
          have h0 : spriteAt m x0 (row + 1) bs r c = false := spriteAt_above (by omega)
          simp [this, hr, h0]
        · have : (⟨row, hrow⟩ : Fin 32) ≠ r := fun e => hr (by rw [← e])
          simp [this, hr]
      · rw [h2, d2, or_assoc]
        refine or_congr_right ⟨?_, ?_⟩
        · rintro (⟨c, hs, hp⟩ | ⟨r, c, hs, hp⟩)
          · exact ⟨⟨row, hrow⟩, c, by rw [spriteAt_cons m x0 row b bs]; simpa using hs, hp⟩
          · have hr : r.val ≠ row := by
              intro e; rw [spriteAt_above (by omega)] at hs; exact absurd hs (by simp)
            have hne : (⟨row, hrow⟩ : Fin 32) ≠ r := fun e => hr (by rw [← e])
            refine ⟨r, c, by rw [spriteAt_cons m x0 row b bs, if_neg hr]; exact hs, ?_⟩
            rw [d1] at hp; simpa [hne] using hp
        · rintro ⟨r, c, hs, hp⟩
          rw [spriteAt_cons m x0 row b bs] at hs
          by_cases hr : r.val = row
          · have e : (⟨row, hrow⟩ : Fin 32) = r := Fin.ext hr.symm
            subst e
            exact .inl ⟨c, by simpa using hs, hp⟩
          · have hne : (⟨row, hrow⟩ : Fin 32) ≠ r := fun e => hr (by rw [← e])
            rw [if_neg hr] at hs
            exact .inr ⟨r, c, hs, by rw [d1]; simpa [hne] using hp⟩
    · rename_i hrow
      obtain ⟨h1, h2⟩ := ih (row + 1) k
      have e : ∀ r : Fin 32, ∀ c, spriteAt m x0 row (b :: bs) r c = spriteAt m x0 (row + 1) bs r c := by
        intro r c
        rw [spriteAt_cons m x0 row b bs, if_neg]
        have := r.isLt; omega
      simp only [e]
      exact ⟨h1, h2⟩

/-- The rows past the bottom put nothing on the screen, so the visible rows draw what all rows would. -/
theorem spriteAt_visible (m : Bool) (x0 y0 n : Nat) (f : Nat → Byte) (r : Fin 32) (c : Fin 64) :
    spriteAt m x0 y0 ((List.range (visibleRows y0 n)).map f) r c = spriteAt m x0 y0 ((List.range n).map f) r c := by
  have hr := r.isLt
  simp only [spriteAt]
  by_cases h : y0 ≤ r.val
  · have e : ((List.range (visibleRows y0 n)).map f).getD (r.val - y0) 0 =
        ((List.range n).map f).getD (r.val - y0) 0 := by
      simp only [List.getD_eq_getElem?_getD, List.getElem?_map, visibleRows]
      by_cases hn : r.val - y0 < n
      · rw [List.getElem?_range (by omega), List.getElem?_range hn]
      · rw [List.getElem?_eq_none (by simp; omega), List.getElem?_eq_none (by simp; omega)]
    rw [e]
  · simp [h]

/-- Two framebuffers with the same pixels are the same. -/
theorem fb_ext {f g : FrameBuffer} (h : ∀ (r : Fin 32) (c : Fin 64), pixelAt f r c = pixelAt g r c) : f = g := by
  apply Vector.ext
  intro r hr
  apply Vector.ext
  intro c hc
  exact h ⟨r, hr⟩ ⟨c, hc⟩

end Sys2Proof.Machine
end

