-- ==== Sys2Proof/Laws/Step.lean ====
section
/-! SUPPORT. Fetch, decode of the fetched bytes, and what a step can do. -/
namespace Sys2Proof

/-- A word that does not decode is reported as itself. -/
theorem unknown_eq {w w' : Word} (h : decodeWord w = .error (.unknown w')) : w' = w := by
  unfold decodeWord at h
  split at h
  case h_16 => unfold decodeF at h; split at h <;> simp_all
  case h_15 => unfold decodeE at h; split at h <;> simp_all
  case h_9 => unfold decode8 at h; split at h <;> simp_all
  all_goals (try split at h) <;> simp_all

/-- The decoder's only error on a word. -/
theorem decodeWord_error {w : Word} {e : DecodeError} (h : decodeWord w = .error e) : e = .unknown w := by
  unfold decodeWord at h
  split at h
  case h_16 => unfold decodeF at h; split at h <;> simp_all
  case h_15 => unfold decodeE at h; split at h <;> simp_all
  case h_9 => unfold decode8 at h; split at h <;> simp_all
  all_goals (try split at h) <;> simp_all

theorem decode_pair_ok {a b : Byte} {i : Instr} (h : decode [a, b] = .ok (i, [])) :
    decodeWord (wordOfBytes a b) = .ok i := by
  simp only [decode] at h
  split at h
  · rename_i h'; rw [h']; simpa using h
  · cases h

theorem decode_pair_error {a b : Byte} {e : DecodeError} (h : decode [a, b] = .error e) :
    decodeWord (wordOfBytes a b) = .error e := by
  simp only [decode] at h
  split at h
  · cases h
  · rename_i h'; rw [h']; simpa using h

theorem toNat_wordOfBytes (a b : Byte) : (wordOfBytes a b).toNat = a.toNat * 256 + b.toNat := by
  have hb := b.isLt
  rw [wordOfBytes, BitVec.toNat_append, ← Nat.shiftLeft_add_eq_or_of_lt hb, Nat.shiftLeft_eq]

namespace Machine

theorem fetchWord_ok {s : State} (h : s.CanFetch) :
    fetchWord s = .ok (wordOfBytes (s.readByte s.pc) (s.readByte (s.pc + 1#12))) := by
  simp only [fetchWord, a12_ok h, ofNat_add_toNat]

/-- What the fetch answers: the two bytes at PC, or `OutOfRange` under `FAULT`. -/
theorem fetchWord_cases (s : State) :
    (s.CanFetch ∧ fetchWord s = .ok (wordOfBytes (s.readByte s.pc) (s.readByte (s.pc + 1#12)))) ∨
    (s.params.addrPolicy = .fault ∧ 4095 < s.pc.toNat + 1 ∧ fetchWord s = .error (.outOfRange (s.pc.toNat + 1))) := by
  rcases a12_cases s.params.addrPolicy (s.pc.toNat + 1) with ⟨h, _⟩ | ⟨hp, hv, e⟩
  · exact .inl ⟨h, fetchWord_ok h⟩
  · exact .inr ⟨hp, hv, by simp only [fetchWord, e]⟩

/-- The fetch reads PC, memory and the address policy, and nothing else. -/
theorem fetchWord_congr {s t : State} (hp : t.params = s.params) (hc : t.pc = s.pc) (hm : t.mem = s.mem) :
    fetchWord t = fetchWord s := by
  simp only [fetchWord, hp, hc, State.readByte, hm]

/-- What `STEP` can do: nothing in a wait state, else the meaning of the fetched word, or the fetch's error. -/
theorem stepEvent_cases (s : State) :
    (s.cs ≠ .ready ∧ stepEvent s = .next s) ∨
    (s.cs = .ready ∧ ∃ w, fetchWord s = .ok w ∧ stepEvent s = execWord w s) ∨
    (s.cs = .ready ∧ ∃ f, fetchWord s = .error f ∧ stepEvent s = .fault f) := by
  unfold stepEvent
  split
  · rename_i hc
    right
    cases hf : fetchWord s with
    | ok w => exact .inl ⟨hc, w, rfl, rfl⟩
    | error f => exact .inr ⟨hc, f, rfl, rfl⟩
  · rename_i hc; exact .inl ⟨by rw [hc]; simp, rfl⟩
  · rename_i hc; exact .inl ⟨by rw [hc]; simp, rfl⟩

theorem stepEvent_ready {s : State} {w : Word} (h : s.cs = .ready) (hf : fetchWord s = .ok w) :
    stepEvent s = execWord w s := by simp [stepEvent, h, hf]

theorem stepEvent_fetch_error {s : State} {f : Fault} (h : s.cs = .ready) (hf : fetchWord s = .error f) :
    stepEvent s = .fault f := by simp [stepEvent, h, hf, raise]

/-- An accepted `STEP` traces the word it fetched, whatever comes of it. -/
theorem traceOf_step {s : State} {w : Word} (h : s.cs = .ready) (hf : fetchWord s = .ok w) :
    traceOf .step s = some w := by simp [traceOf, fetched, h, hf]

/-- What a word can do: its instruction's meaning, or R136. -/
theorem execWord_cases (w : Word) (s : State) :
    (∃ i, decodeWord w = .ok i ∧ execWord w s = exec i s) ∨
    (decodeWord w = .error (.unknown w) ∧ execWord w s = execUnknown s) := by
  cases h : decodeWord w with
  | ok i => exact .inl ⟨i, rfl, by simp only [execWord, h]⟩
  | error e =>
    have := decodeWord_error h
    exact .inr ⟨by rw [this], by simp only [execWord, h]⟩

/-- What a step can do: the oldest scheduled event in the state without it, or `STEP`. -/
theorem step_cases (s : State) :
    (s.schedule = [] ∧ step s = handle .step s) ∨
    (∃ e es, s.schedule = e :: es ∧ step s = handle e (s.setSchedule es)) := by
  cases h : s.schedule with
  | nil => exact .inl ⟨rfl, by simp [step, takeTurn, h]⟩
  | cons e es => exact .inr ⟨e, es, rfl, by simp [step, takeTurn, h]⟩

/-- The instruction at PC depends on PC, memory and the address policy alone. -/
theorem instrAtPc_congr {s t : State} (hp : t.params = s.params) (hc : t.pc = s.pc) (hm : t.mem = s.mem) :
    t.instrAtPc = s.instrAtPc := by simp only [State.instrAtPc, fetchWord_congr hp hc hm]

/-- What a blocked core has at PC depends on the control state, PC, memory and the address policy alone. -/
theorem blockedHere_congr {s t : State} (h : s.BlockedHere) (hs : t.cs = s.cs) (hp : t.params = s.params)
    (hc : t.pc = s.pc) (hm : t.mem = s.mem) : t.BlockedHere := by
  unfold State.BlockedHere at *
  rw [hs]
  simpa only [instrAtPc_congr hp hc hm] using h

/-- Events one after another. -/
theorem handleAll_append (a b : List Event) (s t : State) (h : handleAll a s = .next t) :
    handleAll (a ++ b) s = handleAll b t := by
  induction a generalizing s with
  | nil => cases h; rfl
  | cons e a ih =>
    simp only [handleAll, List.cons_append] at h ⊢
    split at h
    · exact ih _ h
    · cases h
    · cases h

end Machine
end Sys2Proof
end

