-- ==== Sys2Proof/Laws/Exec.lean ====
section
/-! SUPPORT. What an instruction can do when it answers a next state: its effect on everything but PC, and then a value
for PC. -/
namespace Sys2Proof.Machine

/-- The canvas that a draw leaves. -/
def drawn (x y : RegIdx) (n : Nibble) (s : State) : Canvas :=
  drawRows s.params.spriteMsbLeft ((s.reg x).toNat % 64) ((s.reg y).toNat % 32)
    (((List.range (visibleRows ((s.reg y).toNat % 32) n.toNat)).map s.operandAddr).map s.readByte)
    { fb := s.fb, hit := false }

/-- What an instruction does to everything but PC when it completes. -/
def effect : Instr → State → State
  | .cls, s => s.setFb clearScreen
  | .ret, s => s.pop
  | .sys _, s | .jp _, s | .jpV0 _, s => s
  | .call _, s => s.push s.pc
  | .seImm _ _, s | .sneImm _ _, s | .seReg _ _, s | .sneReg _ _, s | .skp _, s | .sknp _, s => s
  | .ldImm x kk, s => s.setReg x kk
  | .addImm x kk, s => s.setReg x (s.reg x + kk)
  | .ldReg x y, s => s.setReg x (s.reg y)
  | .orReg x y, s => s.setReg x (s.reg x ||| s.reg y)
  | .andReg x y, s => s.setReg x (s.reg x &&& s.reg y)
  | .xorReg x y, s => s.setReg x (s.reg x ^^^ s.reg y)
  | .addReg x y, s => flagThen s (carryFlag (s.reg x) (s.reg y)) x fun _ => s.reg x + s.reg y
  | .subReg x y, s => flagThen s (greaterFlag (s.reg x) (s.reg y)) x fun t => t.reg x - t.reg y
  | .shr x _, s => flagThen s (shiftOutLow (s.reg x)) x fun t => t.reg x >>> 1
  | .subnReg x y, s => flagThen s (greaterFlag (s.reg y) (s.reg x)) x fun t => t.reg y - t.reg x
  | .shl x _, s => flagThen s (shiftOutHigh (s.reg x)) x fun t => t.reg x <<< 1
  | .ldI nnn, s => s.setI nnn
  | .rnd x kk, s => (s.setReg x (s.randomByte &&& kk)).setDraws (s.draws + 1)
  | .drw x y n, s => (s.setFb (drawn x y n s).fb).setReg VF (collisionFlag (drawn x y n s).hit)
  | .ldVxDT x, s => s.setReg x s.dt
  | .ldVxK x, s => s.setCs (.keyWait x)
  | .ldDTVx x, s => if s.reg x = 0 then s.setDt (s.reg x) else (s.setDt (s.reg x)).setCs .timerWait
  | .addI x, s => s.setI (BitVec.ofNat 12 (s.i.toNat + (s.reg x).toNat))
  | .ldF x, s => s.setI (glyphAddr (s.reg x))
  | .ldB x, s => s.storeBytes ((List.range 3).map s.operandAddr) (decimalDigits (s.reg x))
  | .stRegs x, s => s.storeBytes ((List.range (x.toNat + 1)).map s.operandAddr) (s.regsUpTo x)
  | .ldRegs x, s => s.loadRegs 0 (((List.range (x.toNat + 1)).map s.operandAddr).map s.readByte)

theorem skipIf_next {c : Bool} {s t : State} (h : skipIf c s = .next t) : ∃ a, t = s.setPc a := by
  unfold skipIf at h
  split at h
  · exact ⟨_, advanceSkip_next h⟩
  · exact ⟨_, advance_next h⟩

theorem skipIf_fault {c : Bool} {s : State} {f : Fault} (h : skipIf c s = .fault f) :
    ∃ v, f = .outOfRange v ∧ 4095 < v ∧ s.params.addrPolicy = .fault := by
  unfold skipIf at h
  split at h <;> exact goto_fault h

theorem setPc_self (s : State) : s.setPc s.pc = s := rfl

/-- A completed instruction leaves its effect and a value for PC. -/
theorem exec_next {i : Instr} {s t : State} (h : exec i s = .next t) : ∃ a, t = (effect i s).setPc a := by
  cases i
  case ret =>
    simp only [exec, execRet] at h
    split at h
    · cases h
    · split at h
      · exact ⟨_, goto_next h⟩
      · cases h; exact ⟨_, rfl⟩
  case call =>
    simp only [exec, execCall] at h
    split at h
    · cases h
    · cases h; exact ⟨_, rfl⟩
  case jp => cases h; exact ⟨_, rfl⟩
  case jpV0 => exact ⟨_, goto_next h⟩
  case seImm => exact skipIf_next h
  case sneImm => exact skipIf_next h
  case seReg => exact skipIf_next h
  case sneReg => exact skipIf_next h
  case skp => exact skipIf_next h
  case sknp => exact skipIf_next h
  case ldVxK x => cases h; exact ⟨s.pc, rfl⟩
  case ldDTVx x =>
    simp only [exec, execLdDTVx] at h
    split at h
    · rename_i h0; exact ⟨_, by simpa only [effect, if_pos h0] using advance_next h⟩
    · rename_i h0; cases h; exact ⟨s.pc, by simp only [effect, if_neg h0]; rfl⟩
  case addI => exact ⟨_, advance_next (withAddr_next h)⟩
  case ldB => exact ⟨_, advance_next (withOperands_next h)⟩
  case stRegs => exact ⟨_, advance_next (withOperands_next h)⟩
  case ldRegs => exact ⟨_, advance_next (withOperands_next h)⟩
  case drw => exact ⟨_, advance_next (withOperands_next h)⟩
  all_goals exact ⟨_, advance_next h⟩

/-- The pieces of state that no instruction but the named ones changes. -/
theorem effect_frame (i : Instr) (s : State) :
    (effect i s).params = s.params ∧ (effect i s).schedule = s.schedule ∧ (effect i s).st = s.st ∧
    (effect i s).key = s.key ∧ (effect i s).pc = s.pc := by
  cases i
  case ldDTVx => simp only [effect]; split <;> simp
  case ldB => simp only [effect]; rw [(storeBytes_spec _ _ s).1]; simp
  case stRegs => simp only [effect]; rw [(storeBytes_spec _ _ s).1]; simp
  case ldRegs => simp only [effect]; rw [loadRegs_frame]; simp
  all_goals simp [effect, flagThen]

/-- No instruction is refused. -/
theorem exec_not_refused (i : Instr) (s : State) (r : Refusal) : exec i s ≠ .refused r := by
  have hg : ∀ (u : State) v, goto u v ≠ .refused r := by
    intro u v h
    rcases goto_cases u v with ⟨_, e⟩ | ⟨_, _, e⟩ <;> rw [e] at h <;> cases h
  have hs : ∀ (c : Bool) (u : State), skipIf c u ≠ .refused r := by
    intro c u h; unfold skipIf at h; split at h <;> exact hg _ _ h
  have ho : ∀ n (k : List Addr → State), withOperands s n (fun as => advance (k as)) ≠ .refused r := by
    intro n k h
    rcases withOperands_cases s n (fun as => advance (k as)) with ⟨_, e⟩ | ⟨_, _, e⟩ <;> rw [e] at h
    · exact hg _ _ h
    · cases h
  intro h
  cases i
  case ret =>
    simp only [exec, execRet] at h
    split at h
    · cases h
    · split at h
      · exact hg _ _ h
      · cases h
  case call => simp only [exec, execCall] at h; split at h <;> cases h
  case jp => cases h
  case ldVxK => cases h
  case ldDTVx =>
    simp only [exec, execLdDTVx] at h
    split at h
    · exact hg _ _ h
    · cases h
  case addI x =>
    simp only [exec, execAddI] at h
    rcases withAddr_cases s (s.i.toNat + (s.reg x).toNat) (fun a => advance (s.setI a)) with ⟨_, e⟩ | ⟨_, _, e⟩ <;>
      rw [e] at h
    · exact hg _ _ h
    · cases h
  case ldB => exact ho _ (fun as => s.storeBytes as _) h
  case stRegs => exact ho _ (fun as => s.storeBytes as _) h
  case ldRegs => exact ho _ (fun as => s.loadRegs 0 (as.map s.readByte)) h
  case drw => exact ho _ _ h
  case seImm => exact hs _ _ h
  case sneImm => exact hs _ _ h
  case seReg => exact hs _ _ h
  case sneReg => exact hs _ _ h
  case skp => exact hs _ _ h
  case sknp => exact hs _ _ h
  all_goals exact hg _ _ h

end Sys2Proof.Machine
end

