-- ==== Sys2Proof/Laws/PerInstr.lean ====
section
/-! SUPPORT. Per-instruction laws about the instructions as syntax. -/
namespace Sys2Proof.Laws.TableRow

/-- The word of the instruction is accepted by the row of 30_encoding.md R104 that bears its number. -/
def Statement (i : Instr) : Prop := opcodeTable.any (fun r => r.order == i.order && r.accepts (encodeWord i)) = true

theorem and_F (n : Nibble) : n &&& 15#4 = n := BitVec.and_allOnes
theorem and_FF (b : Byte) : b &&& 255#8 = b := BitVec.and_allOnes
theorem formNNN_mask (op : Nibble) (nnn : Addr) : formNNN op nnn &&& 0xF000 = op ++ 0#12 := by
  rw [formNNN, show (0xF000 : Word) = 0xF#4 ++ 0#12 from rfl, BitVec.and_append]; simp [and_F]
theorem formXKK_mask (op : Nibble) (x : RegIdx) (kk : Byte) : formXKK op x kk &&& 0xF000 = op ++ 0#4 ++ 0#8 := by
  rw [formXKK, show (0xF000 : Word) = 0xF#4 ++ 0#4 ++ 0#8 from rfl, BitVec.and_append, BitVec.and_append]; simp [and_F]
theorem formXKK_maskKK (op : Nibble) (x : RegIdx) (kk : Byte) : formXKK op x kk &&& 0xF0FF = op ++ 0#4 ++ kk := by
  rw [formXKK, show (0xF0FF : Word) = 0xF#4 ++ 0#4 ++ 0xFF#8 from rfl, BitVec.and_append, BitVec.and_append]; simp [and_F, and_FF]
theorem formXYN_mask (op : Nibble) (x y : RegIdx) (n : Nibble) :
    formXYN op x y n &&& 0xF000 = op ++ 0#4 ++ 0#4 ++ 0#4 := by
  rw [formXYN, show (0xF000 : Word) = 0xF#4 ++ 0#4 ++ 0#4 ++ 0#4 from rfl]
  rw [BitVec.and_append, BitVec.and_append, BitVec.and_append]; simp [and_F]
theorem formXYN_maskN (op : Nibble) (x y : RegIdx) (n : Nibble) :
    formXYN op x y n &&& 0xF00F = op ++ 0#4 ++ 0#4 ++ n := by
  rw [formXYN, show (0xF00F : Word) = 0xF#4 ++ 0#4 ++ 0#4 ++ 0xF#4 from rfl]
  rw [BitVec.and_append, BitVec.and_append, BitVec.and_append]; simp [and_F]

/-- A row with the instruction's number that accepts its word proves the law. -/
theorem of_row {i : Instr} (r : OpcodeRow) (hr : r ∈ opcodeTable) (ho : r.order = i.order)
    (ha : encodeWord i &&& r.mask = r.value) : Statement i :=
  List.any_eq_true.2 ⟨r, hr, by simp [ho, OpcodeRow.accepts, ha]⟩

theorem cls : Statement (.cls) :=
  of_row ⟨1, 0xFFFF, 0x00E0⟩ (by decide) rfl (rfl)
theorem ret : Statement (.ret) :=
  of_row ⟨2, 0xFFFF, 0x00EE⟩ (by decide) rfl (rfl)
theorem sys (nnn : Addr) : Statement (.sys nnn) :=
  of_row ⟨3, 0xF000, 0x0000⟩ (by decide) rfl (formNNN_mask _ _)
theorem jp (nnn : Addr) : Statement (.jp nnn) :=
  of_row ⟨4, 0xF000, 0x1000⟩ (by decide) rfl (formNNN_mask _ _)
theorem call (nnn : Addr) : Statement (.call nnn) :=
  of_row ⟨5, 0xF000, 0x2000⟩ (by decide) rfl (formNNN_mask _ _)
theorem seImm (x : RegIdx) (kk : Byte) : Statement (.seImm x kk) :=
  of_row ⟨6, 0xF000, 0x3000⟩ (by decide) rfl (formXKK_mask _ _ _)
theorem sneImm (x : RegIdx) (kk : Byte) : Statement (.sneImm x kk) :=
  of_row ⟨7, 0xF000, 0x4000⟩ (by decide) rfl (formXKK_mask _ _ _)
theorem seReg (x y : RegIdx) : Statement (.seReg x y) :=
  of_row ⟨8, 0xF00F, 0x5000⟩ (by decide) rfl (formXYN_maskN _ _ _ _)
theorem ldImm (x : RegIdx) (kk : Byte) : Statement (.ldImm x kk) :=
  of_row ⟨9, 0xF000, 0x6000⟩ (by decide) rfl (formXKK_mask _ _ _)
theorem addImm (x : RegIdx) (kk : Byte) : Statement (.addImm x kk) :=
  of_row ⟨10, 0xF000, 0x7000⟩ (by decide) rfl (formXKK_mask _ _ _)
theorem ldReg (x y : RegIdx) : Statement (.ldReg x y) :=
  of_row ⟨11, 0xF00F, 0x8000⟩ (by decide) rfl (formXYN_maskN _ _ _ _)
theorem orReg (x y : RegIdx) : Statement (.orReg x y) :=
  of_row ⟨12, 0xF00F, 0x8001⟩ (by decide) rfl (formXYN_maskN _ _ _ _)
theorem andReg (x y : RegIdx) : Statement (.andReg x y) :=
  of_row ⟨13, 0xF00F, 0x8002⟩ (by decide) rfl (formXYN_maskN _ _ _ _)
theorem xorReg (x y : RegIdx) : Statement (.xorReg x y) :=
  of_row ⟨14, 0xF00F, 0x8003⟩ (by decide) rfl (formXYN_maskN _ _ _ _)
theorem addReg (x y : RegIdx) : Statement (.addReg x y) :=
  of_row ⟨15, 0xF00F, 0x8004⟩ (by decide) rfl (formXYN_maskN _ _ _ _)
theorem subReg (x y : RegIdx) : Statement (.subReg x y) :=
  of_row ⟨16, 0xF00F, 0x8005⟩ (by decide) rfl (formXYN_maskN _ _ _ _)
theorem shr (x y : RegIdx) : Statement (.shr x y) :=
  of_row ⟨17, 0xF00F, 0x8006⟩ (by decide) rfl (formXYN_maskN _ _ _ _)
theorem subnReg (x y : RegIdx) : Statement (.subnReg x y) :=
  of_row ⟨18, 0xF00F, 0x8007⟩ (by decide) rfl (formXYN_maskN _ _ _ _)
theorem shl (x y : RegIdx) : Statement (.shl x y) :=
  of_row ⟨19, 0xF00F, 0x800E⟩ (by decide) rfl (formXYN_maskN _ _ _ _)
theorem sneReg (x y : RegIdx) : Statement (.sneReg x y) :=
  of_row ⟨20, 0xF00F, 0x9000⟩ (by decide) rfl (formXYN_maskN _ _ _ _)
theorem ldI (nnn : Addr) : Statement (.ldI nnn) :=
  of_row ⟨21, 0xF000, 0xA000⟩ (by decide) rfl (formNNN_mask _ _)
theorem jpV0 (nnn : Addr) : Statement (.jpV0 nnn) :=
  of_row ⟨22, 0xF000, 0xB000⟩ (by decide) rfl (formNNN_mask _ _)
theorem rnd (x : RegIdx) (kk : Byte) : Statement (.rnd x kk) :=
  of_row ⟨23, 0xF000, 0xC000⟩ (by decide) rfl (formXKK_mask _ _ _)
theorem drw (x y : RegIdx) (n : Nibble) : Statement (.drw x y n) :=
  of_row ⟨24, 0xF000, 0xD000⟩ (by decide) rfl (formXYN_mask _ _ _ _)
theorem skp (x : RegIdx) : Statement (.skp x) :=
  of_row ⟨25, 0xF0FF, 0xE09E⟩ (by decide) rfl (formXKK_maskKK _ _ _)
theorem sknp (x : RegIdx) : Statement (.sknp x) :=
  of_row ⟨26, 0xF0FF, 0xE0A1⟩ (by decide) rfl (formXKK_maskKK _ _ _)
theorem ldVxDT (x : RegIdx) : Statement (.ldVxDT x) :=
  of_row ⟨27, 0xF0FF, 0xF007⟩ (by decide) rfl (formXKK_maskKK _ _ _)
theorem ldVxK (x : RegIdx) : Statement (.ldVxK x) :=
  of_row ⟨28, 0xF0FF, 0xF00A⟩ (by decide) rfl (formXKK_maskKK _ _ _)
theorem ldDTVx (x : RegIdx) : Statement (.ldDTVx x) :=
  of_row ⟨29, 0xF0FF, 0xF015⟩ (by decide) rfl (formXKK_maskKK _ _ _)
theorem addI (x : RegIdx) : Statement (.addI x) :=
  of_row ⟨30, 0xF0FF, 0xF01E⟩ (by decide) rfl (formXKK_maskKK _ _ _)
theorem ldF (x : RegIdx) : Statement (.ldF x) :=
  of_row ⟨31, 0xF0FF, 0xF029⟩ (by decide) rfl (formXKK_maskKK _ _ _)
theorem ldB (x : RegIdx) : Statement (.ldB x) :=
  of_row ⟨32, 0xF0FF, 0xF033⟩ (by decide) rfl (formXKK_maskKK _ _ _)
theorem stRegs (x : RegIdx) : Statement (.stRegs x) :=
  of_row ⟨33, 0xF0FF, 0xF055⟩ (by decide) rfl (formXKK_maskKK _ _ _)
theorem ldRegs (x : RegIdx) : Statement (.ldRegs x) :=
  of_row ⟨34, 0xF0FF, 0xF065⟩ (by decide) rfl (formXKK_maskKK _ _ _)

end Sys2Proof.Laws.TableRow
end

