-- ==== Sys2Proof/Tests/Slice0.lean ====
section
/-! SUPPORT. Tests, whose expected results are the rows of 95_test_vectors.md (named in the comments) or are worked out
from the rule, and for each statement a witness that its hypotheses can hold. -/
namespace Sys2Proof.Tests
open Sys2Proof Sys2Proof.Machine

/-! ## Well-formed terms -/

theorem test_sys_0E0_is_ill_formed : (Instr.sys 0x0E0).wellFormed = false := by decide
theorem test_sys_0EE_is_ill_formed : (Instr.sys 0x0EE).wellFormed = false := by decide
theorem test_sys_0E1_is_well_formed : (Instr.sys 0x0E1).wellFormed = true := by decide

/-! ## Decode: a word of each row, written out from the encoding column of opcode_table.json -/

theorem test_decode_cls : decodeWord 0b0000000011100000 = .ok .cls := rfl
theorem test_decode_ret : decodeWord 0b0000000011101110 = .ok .ret := rfl
theorem test_decode_sys : decodeWord 0b0000000011101111 = .ok (.sys 0x0EF) := rfl
theorem test_decode_jp : decodeWord 0b0001001000110100 = .ok (.jp 0x234) := rfl
theorem test_decode_call : decodeWord 0b0010001100100110 = .ok (.call 0x326) := rfl
theorem test_decode_seImm : decodeWord 0b0011101000000101 = .ok (.seImm 0xA 0x05) := rfl
theorem test_decode_sneImm : decodeWord 0b0100101010000101 = .ok (.sneImm 0xA 0x85) := rfl
theorem test_decode_seReg : decodeWord 0b0101000100100000 = .ok (.seReg 0x1 0x2) := rfl
theorem test_decode_ldImm : decodeWord 0b0110111110101011 = .ok (.ldImm 0xF 0xAB) := rfl
theorem test_decode_addImm : decodeWord 0b0111000111111110 = .ok (.addImm 0x1 0xFE) := rfl
theorem test_decode_ldReg : decodeWord 0b1000000100100000 = .ok (.ldReg 0x1 0x2) := rfl
theorem test_decode_orReg : decodeWord 0b1000000100100001 = .ok (.orReg 0x1 0x2) := rfl
theorem test_decode_andReg : decodeWord 0b1000000100100010 = .ok (.andReg 0x1 0x2) := rfl
theorem test_decode_xorReg : decodeWord 0b1000000100100011 = .ok (.xorReg 0x1 0x2) := rfl
theorem test_decode_addReg : decodeWord 0b1000101010110100 = .ok (.addReg 0xA 0xB) := rfl
theorem test_decode_subReg : decodeWord 0b1000111100010101 = .ok (.subReg 0xF 0x1) := rfl
theorem test_decode_shr : decodeWord 0b1000000100100110 = .ok (.shr 0x1 0x2) := rfl
theorem test_decode_subnReg : decodeWord 0b1000000100100111 = .ok (.subnReg 0x1 0x2) := rfl
theorem test_decode_shl : decodeWord 0b1000000100101110 = .ok (.shl 0x1 0x2) := rfl
theorem test_decode_sneReg : decodeWord 0b1001000100100000 = .ok (.sneReg 0x1 0x2) := rfl
theorem test_decode_ldI : decodeWord 0b1010001100000001 = .ok (.ldI 0x301) := rfl
theorem test_decode_jpV0 : decodeWord 0b1011111111111111 = .ok (.jpV0 0xFFF) := rfl
theorem test_decode_rnd : decodeWord 0b1100011110100101 = .ok (.rnd 0x7 0xA5) := rfl
theorem test_decode_drw : decodeWord 0b1101000100101111 = .ok (.drw 0x1 0x2 0xF) := rfl
theorem test_decode_skp : decodeWord 0b1110111110011110 = .ok (.skp 0xF) := rfl
theorem test_decode_sknp : decodeWord 0b1110001110100001 = .ok (.sknp 0x3) := rfl
theorem test_decode_ldVxDT : decodeWord 0b1111001100000111 = .ok (.ldVxDT 0x3) := rfl
theorem test_decode_ldVxK : decodeWord 0b1111010100001010 = .ok (.ldVxK 0x5) := rfl
theorem test_decode_ldDTVx : decodeWord 0b1111001000010101 = .ok (.ldDTVx 0x2) := rfl
theorem test_decode_addI : decodeWord 0b1111001000011110 = .ok (.addI 0x2) := rfl
theorem test_decode_ldF : decodeWord 0b1111000100101001 = .ok (.ldF 0x1) := rfl
theorem test_decode_ldB : decodeWord 0b1111001100110011 = .ok (.ldB 0x3) := rfl
theorem test_decode_stRegs : decodeWord 0b1111111101010101 = .ok (.stRegs 0xF) := rfl
theorem test_decode_ldRegs : decodeWord 0b1111000101100101 = .ok (.ldRegs 0x1) := rfl

/-- Unknown words of T-ENC, one for each line of R107. -/
theorem test_decode_unknown :
    decodeWord 0x512F = .error (.unknown 0x512F) ∧ decodeWord 0x8128 = .error (.unknown 0x8128) ∧
    decodeWord 0x9121 = .error (.unknown 0x9121) ∧ decodeWord 0xE1A0 = .error (.unknown 0xE1A0) ∧
    decodeWord 0xF118 = .error (.unknown 0xF118) := ⟨rfl, rfl, rfl, rfl, rfl⟩

/-- One byte is no instruction (R100). -/
theorem test_decode_truncated : decode [0x12] = .error .truncated := rfl

/-! ## One step -/

/-- The reset state with some registers set. -/
def withRegs (rs : List (RegIdx × Byte)) : State := rs.foldl (fun s p => s.setReg p.1 p.2) State.reset

/-- The step of a word from a state completes in a state of which `p` holds. -/
def ran (w : Nat) (s : State) (p : State → Bool) : Bool :=
  match step (s.withFetchWord 16 w) with
  | .next t => p t
  | _ => false

/-- The step of a word from a state raises the fatal error. -/
def raised (w : Nat) (s : State) (f : Fault) : Bool :=
  match step (s.withFetchWord 16 w) with
  | .fault g => g == f
  | _ => false

/-- The event completes in a state of which `p` holds. -/
def handled (e : Event) (s : State) (p : State → Bool) : Bool :=
  match handle e s with
  | .next t => p t
  | _ => false

/-- The reset state with I and the bytes at 300H on, registers 0. -/
def withBytes (i : Addr) (bs : List Byte) : State :=
  (State.reset.setI i).setMem (Memory.writeFrom [] 0x300 bs)

/-- T-FLOW 1. -/
theorem test_sys : ran 0x0000 State.reset (fun t => t.pc == 0x202 && t.v == State.reset.v) = true := by decide
/-- T-FLOW 2. -/
theorem test_jp : ran 0x1FFF State.reset (fun t => t.pc == 0xFFF) = true := by decide
/-- T-FLOW 3. -/
theorem test_call : ran 0x2326 State.reset (fun t => t.stack == [0x200] && t.pc == 0x326) = true := by decide
/-- T-FLOW 3, the call on a full stack, here of one slot. -/
theorem test_call_full :
    raised 0x2200 { State.reset with stack := [0x300], params := { decidedParams with stackDepth := .slots 0 } }
      .stackOverflow = true := by decide
/-- T-FLOW 4. -/
theorem test_ret :
    ran 0x00EE { State.reset with stack := [0x200, 0x300] } (fun t => t.stack == [0x200] && t.pc == 0x302) = true := by decide
/-- T-FLOW 5. -/
theorem test_ret_empty : raised 0x00EE State.reset .stackUnderflow = true := by decide
/-- T-FLOW 6. -/
theorem test_jpV0_wraps : ran 0xBFFF (withRegs [(0, 2)]) (fun t => t.pc == 0x001) = true := by decide
/-- T-FLOW 6, under `FAULT`. -/
theorem test_jpV0_faults : raised 0xBFFF ((withRegs [(0, 2)]).withPolicy .fault) (.outOfRange 4097) = true := by decide
/-- T-FLOW 9. -/
theorem test_fetch_wraps :
    handled .step ((State.reset.setPc 0xFFF).writeByte 0xFFF 0x12) (fun t => t.pc == 0x2F0) = true := by decide
/-- T-FLOW 10. -/
theorem test_unknown : ran 0xF118 State.reset (fun t => t.pc == 0x202 && t.st == 0) = true := by decide
/-- T-FLOW 10, the report. -/
theorem test_unknown_report :
    stepReply (State.reset.withFetchWord 16 0xF118) = { trace := some 0xF118, report := .unknownOpcode 0xF118 } := by decide

/-- T-SKIP 1 and 2. -/
theorem test_seImm : (ran 0x3A05 (withRegs [(0xA, 5)]) (fun t => t.pc == 0x204) &&
    ran 0x3A05 (withRegs [(0xA, 6)]) (fun t => t.pc == 0x202)) = true := by decide
/-- T-SKIP 3 and 4. -/
theorem test_sneImm : (ran 0x4A05 (withRegs [(0xA, 5)]) (fun t => t.pc == 0x202) &&
    ran 0x4A05 (withRegs [(0xA, 6)]) (fun t => t.pc == 0x204)) = true := by decide
/-- T-SKIP 5 and 7. -/
theorem test_seReg : (ran 0x5110 State.reset (fun t => t.pc == 0x204) &&
    ran 0x5120 (withRegs [(2, 0xFF)]) (fun t => t.pc == 0x202)) = true := by decide
/-- T-SKIP 6 and 7. -/
theorem test_sneReg : (ran 0x9110 State.reset (fun t => t.pc == 0x202) &&
    ran 0x9120 (withRegs [(2, 0xFF)]) (fun t => t.pc == 0x204)) = true := by decide
/-- T-SKIP 10 and 9. -/
theorem test_skp : (ran 0xE39E ((withRegs [(3, 0x1A)]).setKey 0xA true) (fun t => t.pc == 0x204) &&
    ran 0xE39E ((withRegs [(3, 0x0A)]).setKey 0xB true) (fun t => t.pc == 0x202)) = true := by decide
/-- T-SKIP 8 and 9. -/
theorem test_sknp : (ran 0xE3A1 ((withRegs [(3, 0x0A)]).setKey 0xA true) (fun t => t.pc == 0x202) &&
    ran 0xE3A1 ((withRegs [(3, 0x0A)]).setKey 0xB true) (fun t => t.pc == 0x204)) = true := by decide
/-- T-SKIP 12, under `FAULT`. -/
theorem test_skip_faults : raised 0x5110 ((State.reset.setPc 0xFFC).withPolicy .fault) (.outOfRange 4096) = true := by decide

/-- T-ALU 1. -/
theorem test_ldImm : ran 0x6FAB State.reset (fun t => t.reg 0xF == 0xAB && t.pc == 0x202) = true := by decide
/-- T-ALU 2. -/
theorem test_addImm : ran 0x7101 (withRegs [(1, 0xFF)]) (fun t => t.reg 1 == 0 && t.reg 0xF == 0) = true := by decide
/-- T-ALU 4. -/
theorem test_ldReg : ran 0x8120 (withRegs [(2, 0x5A)]) (fun t => t.reg 1 == 0x5A && t.reg 2 == 0x5A) = true := by decide
/-- T-ALU 5. -/
theorem test_orReg :
    ran 0x8121 (withRegs [(1, 0xF0), (2, 0x0F), (0xF, 7)]) (fun t => t.reg 1 == 0xFF && t.reg 0xF == 7) = true := by decide
/-- T-ALU 6. -/
theorem test_andReg :
    ran 0x8122 (withRegs [(1, 0xF0), (2, 0x3C), (0xF, 7)]) (fun t => t.reg 1 == 0x30 && t.reg 0xF == 7) = true := by decide
/-- T-ALU 7. -/
theorem test_xorReg :
    ran 0x8123 (withRegs [(1, 0xF0), (2, 0x3C), (0xF, 7)]) (fun t => t.reg 1 == 0xCC && t.reg 0xF == 7) = true := by decide
/-- T-ALU 9. -/
theorem test_addReg :
    ran 0x8124 (withRegs [(1, 0xFF), (2, 1)]) (fun t => t.reg 1 == 0 && t.reg 0xF == 1) = true := by decide
/-- T-ALU 13. -/
theorem test_addReg_to_VF : ran 0x8F14 (withRegs [(0xF, 0xF0), (1, 0x20)]) (fun t => t.reg 0xF == 0x10) = true := by decide
/-- T-ALU 16 and 17. -/
theorem test_subReg : (ran 0x8125 (withRegs [(1, 3), (2, 5)]) (fun t => t.reg 1 == 0xFE && t.reg 0xF == 0) &&
    ran 0x8125 (withRegs [(1, 5), (2, 5)]) (fun t => t.reg 1 == 0 && t.reg 0xF == 0)) = true := by decide
/-- T-ALU 20 and 21. -/
theorem test_subReg_with_VF : (ran 0x8F15 (withRegs [(0xF, 9), (1, 4)]) (fun t => t.reg 0xF == 0xFD) &&
    ran 0x81F5 (withRegs [(1, 9), (0xF, 4)]) (fun t => t.reg 0xF == 1 && t.reg 1 == 8)) = true := by decide
/-- T-ALU 23 and 24. -/
theorem test_shr : (ran 0x8106 (withRegs [(1, 5)]) (fun t => t.reg 1 == 2 && t.reg 0xF == 1) &&
    ran 0x8126 (withRegs [(1, 4), (2, 0xFF)]) (fun t => t.reg 1 == 2 && t.reg 2 == 0xFF)) = true := by decide
/-- T-ALU 28. -/
theorem test_shr_of_VF : ran 0x8F06 (withRegs [(0xF, 3)]) (fun t => t.reg 0xF == 0) = true := by decide
/-- T-ALU 30. -/
theorem test_subnReg : ran 0x8127 (withRegs [(1, 5), (2, 3)]) (fun t => t.reg 1 == 0xFE && t.reg 0xF == 0) = true := by decide
/-- T-ALU 32 and 33. -/
theorem test_subnReg_with_VF : (ran 0x8F17 (withRegs [(0xF, 4), (1, 9)]) (fun t => t.reg 0xF == 8) &&
    ran 0x81F7 (withRegs [(1, 4), (0xF, 9)]) (fun t => t.reg 0xF == 1 && t.reg 1 == 0xFD)) = true := by decide
/-- T-ALU 34. -/
theorem test_shl : ran 0x810E (withRegs [(1, 0x81)]) (fun t => t.reg 1 == 2 && t.reg 0xF == 1) = true := by decide
/-- T-ALU 38. -/
theorem test_shl_of_VF : ran 0x8F0E (withRegs [(0xF, 0x80)]) (fun t => t.reg 0xF == 2) = true := by decide
/-- T-ALU 42, of which PC is tested: the random byte is free. -/
theorem test_rnd : ran 0xC100 (withRegs [(2, 9)]) (fun t => t.pc == 0x202 && t.reg 2 == 9) = true := by decide

/-- T-IDX 1. -/
theorem test_ldI : ran 0xAFFF State.reset (fun t => t.i == 0xFFF) = true := by decide
/-- T-IDX 3. -/
theorem test_addI_wraps :
    ran 0xF21E ((withRegs [(2, 0xFF)]).setI 0xFFF) (fun t => t.i == 0x0FE && t.reg 0xF == 0) = true := by decide
/-- T-IDX 3, under `FAULT`. -/
theorem test_addI_faults :
    raised 0xF21E (((withRegs [(2, 0xFF)]).setI 0xFFF).withPolicy .fault) (.outOfRange 4350) = true := by decide
/-- T-IDX 4. -/
theorem test_ldF : (ran 0xF129 (withRegs [(1, 0x0F)]) (fun t => t.i == 0x04B) &&
    ran 0xF129 (withRegs [(1, 0xFF)]) (fun t => t.i == 0x4FB)) = true := by decide
/-- T-IDX 7. -/
theorem test_ldB : ran 0xF333 ((withRegs [(3, 156)]).setI 0x300)
    (fun t => [0x300, 0x301, 0x302].map t.readByte == [1, 5, 6]) = true := by decide
/-- T-IDX 8. -/
theorem test_ldB_wraps : ran 0xF333 ((withRegs [(3, 123)]).setI 0xFFF)
    (fun t => [0xFFF, 0x000, 0x001].map t.readByte == [1, 2, 3]) = true := by decide
/-- T-IDX 9. -/
theorem test_stRegs : ran 0xF255 ((withRegs [(0, 1), (1, 2), (2, 3), (3, 4)]).setI 0x400)
    (fun t => [0x400, 0x401, 0x402, 0x403].map t.readByte == [1, 2, 3, 0] && t.i == 0x400) = true := by decide
/-- T-IDX 11. -/
theorem test_ldRegs : ran 0xF165 ((withBytes 0x300 [0xAA, 0xBB, 0xCC]).setReg 2 7)
    (fun t => t.reg 0 == 0xAA && t.reg 1 == 0xBB && t.reg 2 == 7 && t.i == 0x300) = true := by decide

/-- T-DSP 11. -/
theorem test_cls : ran 0x00E0 ((State.reset.setFb (Vector.replicate 32 (Vector.replicate 64 true))).setReg 0xF 7)
    (fun t => !t.pixel 0 0 && !t.pixel 31 63 && t.reg 0xF == 7) = true := by decide
/-- T-DSP 3: the columns wrap. -/
theorem test_drw_wraps : ran 0xD011 ((withBytes 0x300 [0xFF]).setReg 0 63)
    (fun t => t.pixel 0 63 && t.pixel 0 6 && !t.pixel 0 7 && !t.pixel 1 0 && t.reg 0xF == 0) = true := by decide
/-- T-DSP 6 and 9: the second row is clipped, and a pixel turned off is a collision. -/
theorem test_drw_clips_and_collides :
    (ran 0xD012 ((withBytes 0x300 [0xFF, 0xFF]).setReg 1 31) (fun t => t.pixel 31 7 && !t.pixel 0 0 && t.reg 0xF == 0) &&
    ran 0xD011 ((withBytes 0x300 [0x0F]).setFb (Vector.replicate 32 (Vector.replicate 64 true)))
      (fun t => t.pixel 0 3 && !t.pixel 0 4 && !t.pixel 0 7 && t.reg 0xF == 1)) = true := by decide

/-- T-TMR 1. -/
theorem test_ldVxDT : ran 0xF307 (withRegs [(3, 9)]) (fun t => t.reg 3 == 0 && t.pc == 0x202) = true := by decide
/-- T-TMR 2. -/
theorem test_ldDTVx_zero : ran 0xF215 State.reset (fun t => t.cs == .ready && t.pc == 0x202) = true := by decide
/-- T-TMR 3. -/
theorem test_ldDTVx : ran 0xF215 (withRegs [(2, 1)]) (fun t => t.dt == 1 && t.cs == .timerWait && t.pc == 0x200) = true := by
  decide
/-- T-TMR 10. -/
theorem test_ldVxK : ran 0xF50A (State.reset.setKey 3 true)
    (fun t => t.cs == .keyWait 5 && t.pc == 0x200 && t.reg 5 == 0) = true := by decide
/-- T-TMR 5. -/
theorem test_tick : handled .tick ((State.reset.setDt 1).setCs .timerWait)
    (fun t => t.dt == 0 && t.cs == .ready && t.pc == 0x202) = true := by decide
/-- T-TMR 12. -/
theorem test_press : handled (.press 0xB) (State.reset.setCs (.keyWait 5))
    (fun t => t.keyDown 0xB && t.reg 5 == 0x0B && t.cs == .ready && t.pc == 0x202) = true := by decide
/-- T-TMR 9. -/
theorem test_release : handled (.release 0xC) (State.reset.setKey 0xC true) (fun t => !t.keyDown 0xC) = true := by decide
/-- T-RST. -/
theorem test_load : handled (.load [0x60, 0x1A, 0x70, 0x05]) ((withRegs [(1, 9)]).setPc 0x345)
    (fun t => [0x000, 0x005, 0x04C, 0x050, 0x1FF, 0x200, 0x203, 0x204].map t.readByte ==
      [0xF0, 0x20, 0x80, 0, 0, 0x60, 0x05, 0] && t.pc == 0x200 && t.reg 1 == 0) = true := by decide

/-! ## Witnesses: states and operands that meet the hypotheses of the statements, at the edges of their ranges -/

/-- A core under `FAULT` with PC at an address. -/
def faultAt (pc : Addr) : State := (State.reset.setPc pc).withPolicy .fault

/-- A core whose call stack is `l`, of a given depth. -/
def stackOf (l : List Addr) (d : StackDepth) : State :=
  { faultAt 0x200 with stack := l, params := { decidedParams with addrPolicy := .fault, stackDepth := d } }

theorem witness_DecodeOfEncodeGivesInstruction : (Instr.sys 0x0E1).wellFormed = true := by decide

theorem witness_EncodeOfDecodeGivesWord : decodeWord 0xF165 = .ok (.ldRegs 1) := rfl

theorem witness_StepRunsDecodedInstruction :
    let s := (faultAt 0xFFE).withFetchWord 16 0x1234
    s.cs = .ready ∧ s.CanFetch ∧ decode [s.readByte s.pc, s.readByte (s.pc + 1#12)] = .ok (.jp 0x234, []) ∧
    s.schedule = [] ∧ ∃ t, t = s.setSchedule [.step, .tick] ∧ t.cs = .ready ∧ t.CanFetch ∧
      decode [t.readByte t.pc, t.readByte (t.pc + 1#12)] = .ok (.jp 0x234, []) ∧ t.schedule = .step :: [.tick] :=
  ⟨rfl, by decide, rfl, rfl, _, rfl, rfl, by decide, rfl, rfl⟩

theorem witness_StepRunsDecodedInstruction_fetch :
    (faultAt 0xFFF).cs = .ready ∧ (faultAt 0xFFF).params.addrPolicy = .fault ∧ (faultAt 0xFFF).pc = 0xFFF#12 := by decide

theorem witness_UnknownWordAdvancesAndIsReported :
    let s := (faultAt 0xFFD).withFetchWord 16 0xF118
    s.cs = .ready ∧ s.schedule = [] ∧ s.CanFetch ∧ s.CanAdvance ∧
    decode [s.readByte s.pc, s.readByte (s.pc + 1#12)] = .error (.unknown 0xF118) :=
  ⟨rfl, rfl, by decide, by decide, rfl⟩

theorem witness_FetchReadsTwoBytesBigEndian :
    ((State.reset.setPc 0xFFF).params.addrPolicy = .wrap) ∧ (faultAt 0xFFE).pc ≠ 0xFFF#12 ∧
    (faultAt 0xFFF).params.addrPolicy = .fault ∧ (faultAt 0xFFF).pc = 0xFFF#12 := by decide

theorem witness_StepIsNotAcceptedWhileWaiting :
    (State.reset.setCs .timerWait).cs ≠ .ready ∧ (State.reset.setCs (.keyWait 0xF)).cs ≠ .ready := by decide

theorem witness_StepTakesOldestScheduledEvent :
    State.reset.schedule = [] ∧ (State.reset.setSchedule [.tick]).schedule = .tick :: [] := by decide

/-- PC at the last address from which the normal advance raises nothing under `FAULT`, and at the first from which it
raises: SysIsANoOp, and the statements whose one hypothesis is `CanAdvance` (ReturnGoesOnAfterTheCall,
LoadImmediateSetsRegister, AddImmediateLosesTheCarry, MoveCopiesRegister, LogicActsBitwiseAndLeavesVF,
AddRegistersSetsCarry, SubtractSetsGreaterFlag, ShiftsMoveOneBitThroughVF, RandomByteIsMasked, LoadIndexSetsI,
GlyphAddressIsFiveTimesTheDigit, ClearScreenClearsEveryPixel). -/
theorem witness_CanAdvance :
    (faultAt 0xFFD).CanAdvance ∧ (faultAt 0xFFE).params.addrPolicy = .fault ∧ 4094 ≤ (faultAt 0xFFE).pc.toNat ∧
    State.reset.CanAdvance := by decide

theorem witness_SysIsANoOp :
    (0x0#4 ++ 0x0E1#12 : BitVec 16) ≠ 0x00E0 ∧ (0x0#4 ++ 0x0E1#12 : BitVec 16) ≠ 0x00EE := by decide

theorem witness_JumpV0AddsRegisterZero :
    let s := (faultAt 0x200).setReg 0 1
    (0xFFE : Addr).toNat + (s.reg 0).toNat ≤ 4095 ∧ s.params.addrPolicy = .fault ∧
    4095 < (0xFFF : Addr).toNat + (s.reg 0).toNat := by decide

theorem witness_CallPushesItsOwnAddress :
    (∀ n, (stackOf [0x300] (.slots 1)).params.stackDepth = .slots n → (stackOf [0x300] (.slots 1)).sp ≠ n + 1) ∧
    (∀ n, (stackOf [0x300] .unbounded).params.stackDepth = .slots n → (stackOf [0x300] .unbounded).sp ≠ n + 1) ∧
    (stackOf [0x300] (.slots 0)).params.stackDepth = .slots 0 ∧ (stackOf [0x300] (.slots 0)).sp = 0 + 1 :=
  ⟨fun _ e => by cases e; decide, fun _ e => (nomatch e), rfl, rfl⟩

theorem witness_ReturnPopsTheStack :
    (stackOf [0x200, 0xFFD] .unbounded).stack = [0x200] ++ [0xFFD] ∧
    (stackOf [0x200, 0xFFD] .unbounded).params.retAdvance = true ∧ (0xFFD : Addr).toNat + 2 ≤ 4095 ∧
    (stackOf [0xFFE] .unbounded).stack = [] ++ [0xFFE] ∧ (stackOf [0xFFE] .unbounded).params.addrPolicy = .fault ∧
    4094 ≤ (0xFFE : Addr).toNat ∧
    ∃ s : State, s.params.retAdvance = false ∧ s.stack = [] ++ [0x200] :=
  ⟨rfl, rfl, by decide, rfl, rfl, by decide,
    { State.reset with stack := [0x200], params := { decidedParams with retAdvance := false } }, rfl, rfl⟩

theorem witness_ReturnOnEmptyStackIsFatal : State.reset.sp = 0 := rfl

theorem witness_ReturnGoesOnAfterTheCall :
    let s := stackOf [0x300] .unbounded
    ∃ t u : State, exec (.call 0x326) s = .next t ∧ u = (t.setPc 0x400).setReg 1 9 ∧ u.stack = t.stack ∧
      u.params = s.params ∧ s.params.retAdvance = true ∧ s.CanAdvance :=
  ⟨_, _, rfl, rfl, rfl, rfl, rfl, by decide⟩

/-- For SkipsOnImmediate: the register equal and not equal, with PC at the edges of the two advances. -/
theorem witness_SkipsOnImmediate :
    (faultAt 0xFFB).reg 1 = 0 ∧ (faultAt 0xFFB).CanSkip ∧ (faultAt 0xFFB).reg 1 ≠ 5 ∧
    (faultAt 0xFFD).reg 1 = 0 ∧ (faultAt 0xFFD).reg 1 ≠ 5 ∧ (faultAt 0xFFD).CanAdvance ∧
    (faultAt 0xFFC).reg 1 = 0 ∧ (faultAt 0xFFC).reg 1 ≠ 5 ∧ (faultAt 0xFFC).params.addrPolicy = .fault ∧
    4092 ≤ (faultAt 0xFFC).pc.toNat ∧ (faultAt 0xFFE).params.addrPolicy = .fault ∧ 4094 ≤ (faultAt 0xFFE).pc.toNat ∧
    (faultAt 0xFFE).reg 1 = 0 ∧ (faultAt 0xFFE).reg 1 ≠ 5 := by decide

theorem witness_SkipsOnRegisters :
    let s := fun pc => (faultAt pc).setReg 2 0xFF
    (s 0xFFB).reg 1 = (s 0xFFB).reg 3 ∧ (s 0xFFB).reg 1 ≠ (s 0xFFB).reg 2 ∧ (s 0xFFB).CanSkip ∧
    (s 0xFFD).reg 1 = (s 0xFFD).reg 3 ∧ (s 0xFFD).reg 1 ≠ (s 0xFFD).reg 2 ∧ (s 0xFFD).CanAdvance ∧
    (s 0xFFC).reg 1 = (s 0xFFC).reg 3 ∧ (s 0xFFC).reg 1 ≠ (s 0xFFC).reg 2 ∧ (s 0xFFC).params.addrPolicy = .fault ∧
    4092 ≤ (s 0xFFC).pc.toNat ∧ (s 0xFFE).params.addrPolicy = .fault ∧ 4094 ≤ (s 0xFFE).pc.toNat ∧
    (s 0xFFE).reg 1 = (s 0xFFE).reg 3 ∧ (s 0xFFE).reg 1 ≠ (s 0xFFE).reg 2 := by decide

theorem witness_SkipsOnKeys :
    let s := fun pc => ((faultAt pc).setReg 3 0xFA).setKey 0xA true
    (0xA : Nibble).toNat = ((s 0xFFB).reg 3).toNat % 16 ∧ (s 0xFFB).keyDown 0xA = true ∧ (s 0xFFB).CanSkip ∧
    (0x0 : Nibble).toNat = ((s 0xFFB).reg 2).toNat % 16 ∧ (s 0xFFB).keyDown 0x0 = false ∧
    (s 0xFFD).keyDown 0xA = true ∧ (s 0xFFD).keyDown 0x0 = false ∧ (s 0xFFD).CanAdvance ∧
    (s 0xFFC).keyDown 0xA = true ∧ (s 0xFFC).keyDown 0x0 = false ∧ (s 0xFFC).params.addrPolicy = .fault ∧
    4092 ≤ (s 0xFFC).pc.toNat ∧ (s 0xFFE).params.addrPolicy = .fault ∧ 4094 ≤ (s 0xFFE).pc.toNat ∧
    (s 0xFFE).keyDown 0xA = true ∧ (s 0xFFE).keyDown 0x0 = false := by decide

theorem witness_AddIndexReducesToTwelveBits :
    let s := ((faultAt 0xFFD).setI 0xFFF).setReg 1 1
    s.i.toNat + (s.reg 0).toNat ≤ 4095 ∧ s.CanAdvance ∧ s.params.addrPolicy = .fault ∧
    4095 < s.i.toNat + (s.reg 1).toNat := by decide

theorem witness_DecimalDigitsAreStored :
    let s := fun i => (faultAt 0xFFD).setI i
    (s 0xFFD).i.toNat ≤ 4093 ∧ (s 0xFFD).CanAdvance ∧ (s 0xFFE).params.addrPolicy = .fault ∧
    4093 < (s 0xFFE).i.toNat := by decide

/-- For RegistersAreStored and RegistersAreLoaded. -/
theorem witness_RegistersAreStored :
    let s := fun i => (faultAt 0xFFD).setI i
    (s 0xFF0).i.toNat + (0xF : RegIdx).toNat ≤ 4095 ∧ (s 0xFF0).CanAdvance ∧
    (s 0xFF1).params.addrPolicy = .fault ∧ 4095 < (s 0xFF1).i.toNat + (0xF : RegIdx).toNat := by decide

theorem witness_StoreThenLoadRestoresRegisters :
    let s := (withRegs [(0, 9), (1, 8)]).setI 0xFFF
    ∃ t u : State, exec (.stRegs 1) s = .next t ∧ u = (t.setReg 0 0).setPc 0x300 ∧ u.mem = t.mem ∧ u.i = t.i ∧
      u.params = t.params ∧ u.CanAdvance :=
  ⟨_, _, rfl, rfl, rfl, rfl, rfl, .inl rfl⟩

theorem witness_DrawXorsEachPixel :
    let s := fun i => ((faultAt 0xFFD).setI i).setReg 2 31
    (s 0xFFB).i.toNat + min (5 : Nibble).toNat (32 - ((s 0xFFB).reg 1).toNat % 32) ≤ 4096 ∧
    (s 0xFFF).i.toNat + min (5 : Nibble).toNat (32 - ((s 0xFFF).reg 2).toNat % 32) ≤ 4096 ∧ (s 0xFFB).CanAdvance ∧
    (s 0xFFC).params.addrPolicy = .fault ∧
    4096 < (s 0xFFC).i.toNat + min (5 : Nibble).toNat (32 - ((s 0xFFC).reg 1).toNat % 32) := by decide

/-- A draw that collides with every pixel of a full screen. -/
theorem witness_DrawXorsEachPixel_collision :
    (∃ s t : State, exec (.drw 0 0 1) s = .next t ∧ ∃ r c, s.pixel r c = true ∧ t.pixel r c = false) ∧
    (∃ s t : State, exec (.drw 0 0 1) s = .next t ∧ ¬ ∃ r c, s.pixel r c = true ∧ t.pixel r c = false) :=
  ⟨⟨State.reset.setFb (Vector.replicate 32 (Vector.replicate 64 true)), _, rfl, 0, 0, by decide, by decide⟩,
   ⟨State.reset, _, rfl, fun ⟨r, c, h, _⟩ => by simp [State.pixel, pixelAt, State.reset, clearScreen] at h⟩⟩

theorem witness_DrawTwiceRestoresTheScreen :
    ∃ s t u : State, exec (.drw 0 0 5) s = .next t ∧ u = t.setPc 0x300 ∧ u.fb = t.fb ∧ u.mem = s.mem ∧ u.i = s.i ∧
      u.params = s.params ∧ u.reg 0 = s.reg 0 ∧ u.CanAdvance :=
  ⟨State.reset, _, _, rfl, rfl, rfl, rfl, rfl, rfl, by decide, .inl rfl⟩

/-- A state in each control state that meets the invariant, with the call stack full. -/
def ready : State := stackOf [0x300] (.slots 0)
def timed (dt : Byte) (pc : Addr) : State :=
  ((ready.setPc pc).withFetchWord 16 0xF215).setDt dt |>.setCs .timerWait
def keyed (pc : Addr) : State := ((ready.setPc pc).withFetchWord 16 0xF50A).setCs (.keyWait 5)

theorem witness_invariant : ready.Inv ∧ (timed 2 0xFFE).Inv ∧ (keyed 0xFFE).Inv :=
  ⟨⟨by decide, by decide, rfl, Nat.le_refl 1, trivial⟩, ⟨by decide, by decide, rfl, Nat.le_refl 1, 2, rfl⟩,
   ⟨by decide, by decide, rfl, Nat.le_refl 1, rfl⟩⟩

theorem witness_DelayTimerIsRead : ready.CanAdvance ∧ ready.cs = .ready := by decide

theorem witness_DelayTimerLoadStartsAWait :
    (withRegs [(2, 1)]).reg 2 ≠ 0 ∧ (faultAt 0xFFD).reg 2 = 0 ∧ (faultAt 0xFFD).CanAdvance := by decide

theorem witness_TickCountsDownAndEndsTheTimerWait :
    State.reset.cs ≠ .timerWait ∧ 1 < (timed 2 0x200).dt.toNat ∧
    (timed 1 0xFFD).cs = .timerWait ∧ (timed 1 0xFFD).dt.toNat ≤ 1 ∧ (timed 1 0xFFD).CanAdvance ∧
    (timed 1 0xFFE).cs = .timerWait ∧ (timed 1 0xFFE).dt.toNat ≤ 1 ∧ (timed 1 0xFFE).params.addrPolicy = .fault ∧
    4094 ≤ (timed 1 0xFFE).pc.toNat := by decide

theorem witness_PressEndsTheKeyWait :
    (∀ wx, (timed 2 0x200).cs ≠ .keyWait wx) ∧ (keyed 0xFFD).cs = .keyWait 5 ∧ (keyed 0xFFD).CanAdvance ∧
    (keyed 0xFFE).cs = .keyWait 5 ∧ (keyed 0xFFE).params.addrPolicy = .fault ∧ 4094 ≤ (keyed 0xFFE).pc.toNat :=
  ⟨fun _ h => (nomatch h), by decide⟩

theorem witness_TimerWaitLastsExactlyVxTicks :
    ∃ t, (withRegs [(2, 1)]).st = 0 ∧ (withRegs [(2, 1)]).reg 2 ≠ 0 ∧ (withRegs [(2, 1)]).CanAdvance ∧
      exec (.ldDTVx 2) (withRegs [(2, 1)]) = .next t ∧ 0 < ((withRegs [(2, 1)]).reg 2).toNat :=
  ⟨_, rfl, by decide, .inl rfl, rfl, by decide⟩

theorem witness_ResetLeavesTheSpecsValues : (79 : Addr).toNat < 80 ∧ 80 ≤ (80 : Addr).toNat := by decide

theorem witness_LoadResetsAndPlacesTheRom :
    (List.replicate 3584 (1 : Byte)).length ≤ 3584 ∧ (0xFFF : Addr).toNat = 512 + 3583 ∧
    3583 < (List.replicate 3584 (1 : Byte)).length ∧ (0x1FF : Addr).toNat < 512 ∧
    512 + (List.replicate 3583 (1 : Byte)).length ≤ (0xFFF : Addr).toNat ∧
    3584 < (List.replicate 3585 (1 : Byte)).length := by
  simp only [List.length_replicate]; decide

theorem witness_LoadForgetsHistory :
    ∃ s s' : State, s ≠ s' ∧ s.params = s'.params ∧ s.draws = s'.draws ∧ s.schedule = s'.schedule :=
  ⟨State.reset, State.reset.setPc 0, fun h => absurd (congrArg State.pc h) (by decide), rfl, rfl, rfl⟩

theorem witness_FatalErrorsComeOnlyFromTheirCauses :
    exec .ret State.reset = .fault .stackUnderflow ∧ exec (.call 0x200) ready = .fault .stackOverflow ∧
    exec .cls (faultAt 0xFFE) = .fault (.outOfRange 4096) := ⟨rfl, rfl, rfl⟩

theorem witness_EveryInstructionCompletesUnderWrap :
    let s := (stackOf [0xFFF] .unbounded).withPolicy .wrap
    s.params.addrPolicy = .wrap ∧ ¬ StackErrorOf .ret s ∧ ¬ StackErrorOf (.call 0x300) s ∧ ¬ StackErrorOf (.ldB 3) s := by
  refine ⟨rfl, ?_, ?_, ?_⟩ <;> rintro (⟨h, h'⟩ | ⟨⟨n, h⟩, h'⟩) <;> first | cases h; done | exact absurd h' (by decide)

theorem witness_StackErrorsPersist :
    let s := State.reset.withFetchWord 16 0x00EE
    ∃ t u v, handle .step s = .fault .stackUnderflow ∧ handle .tick s = .next t ∧ handle (.press 3) s = .next u ∧
      handle (.release 3) s = .next v :=
  ⟨_, _, _, rfl, rfl, rfl, rfl⟩

theorem witness_ErrorOutputCarriesTheCode :
    handle .step (State.reset.withFetchWord 16 0x00EE) = .fault .stackUnderflow ∧
    handle .step (faultAt 0xFFF) = .fault (.outOfRange 4096) ∧
    handle .step (ready.withFetchWord 16 0x2200) = .fault .stackOverflow ∧
    (∃ t, fetchWord (State.reset.withFetchWord 16 0xF118) = .ok 0xF118 ∧
      handle .step (State.reset.withFetchWord 16 0xF118) = .next t) ∧
    (∃ t, fetchWord (State.reset.withFetchWord 16 0x6FAB) = .ok 0x6FAB ∧
      handle .step (State.reset.withFetchWord 16 0x6FAB) = .next t) ∧
    (∃ s : State, s = (faultAt 0xFFE).withFetchWord 16 0x6FAB ∧ s.cs = .ready ∧ fetchWord s = .ok 0x6FAB ∧
      handle .step s = .fault (.outOfRange 4096)) ∧
    ∃ t, handle (.press 3) State.reset = .next t :=
  ⟨rfl, rfl, rfl, ⟨_, rfl, rfl⟩, ⟨_, rfl, rfl⟩, ⟨_, rfl, rfl, rfl, rfl⟩, _, rfl⟩

theorem witness_AdvancePastTheEndIsOutOfRange :
    let s := fun i => (faultAt 0xFFE).setI i
    (s 0xFFF).params.addrPolicy = .fault ∧ 4094 ≤ (s 0xFFF).pc.toNat ∧ (s 0xFFF).reg 1 = 0 ∧
    (s 0xFFF).i.toNat + ((s 0xFFF).reg 1).toNat ≤ 4095 ∧ (s 0xFFD).i.toNat ≤ 4093 ∧
    (s 0xFF0).i.toNat + (0xF : RegIdx).toNat ≤ 4095 ∧
    (s 0xFFB).i.toNat + min (5 : Nibble).toNat (32 - ((s 0xFFB).reg 2).toNat % 32) ≤ 4096 := by decide

theorem witness_AdvancePastTheEndIsOutOfRange_unknown :
    let s := (faultAt 0xFFE).withFetchWord 16 0xF118
    s.params.addrPolicy = .fault ∧ 4094 ≤ s.pc.toNat ∧ s.cs = .ready ∧ s.CanFetch ∧
    decode [s.readByte s.pc, s.readByte (s.pc + 1#12)] = .error (.unknown 0xF118) :=
  ⟨rfl, by decide, rfl, by decide, rfl⟩

/-- For EachStateHasOnlyItsWriters and OnlyNamedRegistersAreWritten. -/
theorem witness_OnlyNamedRegistersAreWritten :
    ∃ t, exec (.addReg 1 2) State.reset = .next t ∧ writesReg (.addReg 1 2) 3 = false ∧
      (∀ x, Instr.addReg 1 2 ≠ .ldB x) ∧ (∀ x y n, Instr.addReg 1 2 ≠ .drw x y n) ∧ (∀ x, Instr.addReg 1 2 ≠ .ldDTVx x) :=
  ⟨_, rfl, by decide, nofun, nofun, nofun⟩

theorem witness_StoresTouchOnlyTheirBytes :
    ∃ t u, exec (.ldB 1) State.reset = .next t ∧ exec (.stRegs 2) State.reset = .next u ∧
      ∀ k, k < 3 → (3 : Addr) ≠ State.reset.operandAddr k :=
  ⟨_, _, rfl, rfl, by decide⟩

theorem witness_WaitingCoreKeepsItsState :
    ∃ t u, (keyed 0x200).cs ≠ .ready ∧ handle (.press 0xB) (keyed 0x200) = .next t ∧
      (timed 2 0x200).cs ≠ .ready ∧ handle .tick (timed 2 0x200) = .next u :=
  ⟨_, _, by decide, rfl, by decide, rfl⟩

theorem witness_FaultPolicyRefinesWrap :
    ∃ t, (faultAt 0xFFD).params.addrPolicy = .fault ∧ step (faultAt 0xFFD) = .next t := ⟨_, rfl, rfl⟩

/-- For StepKeepsTheInvariant, with the states of `witness_invariant`. -/
theorem witness_StepKeepsTheInvariant :
    ∃ t u v, step (ready.withFetchWord 16 0xF233) = .next t ∧ step ((timed 2 0x200).setSchedule [.tick]) = .next u ∧
      step ((keyed 0x200).setSchedule [.press 0xF]) = .next v := ⟨_, _, _, rfl, rfl, rfl⟩

end Sys2Proof.Tests
end

namespace Sys2Proof.Machine

/-- Only PC 4095 has no next address: elsewhere `PC + 1` raises nothing under either policy (20_memory.md R82). -/
theorem canFetch_iff (s : State) : s.CanFetch ↔ s.params.addrPolicy = .wrap ∨ s.pc ≠ 0xFFF#12 :=
  or_congr_right (by bv_omega)

/-- The fetch at PC 4095 under `FAULT` raises the address after the last one. -/
theorem fetchWord_error {s : State} (hp : s.params.addrPolicy = .fault) (hpc : s.pc = 0xFFF#12) :
    fetchWord s = .error (.outOfRange 4096) := by
  have ha : a12 .fault (s.pc.toNat + 1) = .error (.outOfRange 4096) := by
    rw [hpc]; exact a12_error (by decide)
  simp only [fetchWord, hp, ha]

/-- Settles O8: the fetch completes exactly where `PC + 1` is an address or wraps, and the word of two bytes is
big-endian. -/
theorem fetchReadsTwoBytesBigEndian : Obligations.FetchReadsTwoBytesBigEndian := by
  intro s
  refine ⟨fun h => ?_, fetchWord_error⟩
  have hf : s.CanFetch := (canFetch_iff s).2 h
  exact ⟨_, fetchWord_ok hf, toNat_wordOfBytes _ _⟩

end Sys2Proof.Machine

/-! ## Control transfer (40_flow.md) -/

namespace Sys2Proof

/-- `0nnn` is every word with leading nibble 0 but the two exact patterns (30_encoding.md R106). -/
theorem decodeWord_formNNN_sys {nnn : Addr} (hcls : formNNN 0x0 nnn ≠ 0x00E0) (hret : formNNN 0x0 nnn ≠ 0x00EE) :
    decodeWord (formNNN 0x0 nnn) = .ok (.sys nnn) := by
  have hd : decode0 (formNNN 0x0 nnn) = .sys nnn := by
    rw [decode0, if_neg hcls, if_neg hret, fieldNNN_formNNN]
  simpa [decodeWord] using hd

theorem decodeWord_formNNN_jp (nnn : Addr) : decodeWord (formNNN 0x1 nnn) = .ok (.jp nnn) := by
  simp [decodeWord]

theorem decodeWord_formNNN_jpV0 (nnn : Addr) : decodeWord (formNNN 0xB nnn) = .ok (.jpV0 nnn) := by
  simp [decodeWord]

namespace Machine

/-- Settles O11: `0nnn` is the normal advance and nothing more, so what `advance` answers is what it answers. -/
theorem sysIsANoOp : Obligations.SysIsANoOp := by
  intro s nnn
  exact ⟨decodeWord_formNNN_sys, advance_ok, advance_error⟩

/-- Settles O12. -/
theorem jumpSetsPc : Obligations.JumpSetsPc := by
  intro s nnn
  exact ⟨decodeWord_formNNN_jp nnn, rfl⟩

theorem goto_error {s : State} {v : Nat} (hp : s.params.addrPolicy = .fault) (h : 4095 < v) :
    goto s v = .fault (.outOfRange v) := withAddr_error _ hp h

/-- Reducing modulo 4096 before truncating to 12 bits changes nothing. -/
theorem ofNat_mod_4096 (v : Nat) : BitVec.ofNat 12 (v % 4096) = BitVec.ofNat 12 v := by
  apply BitVec.eq_of_toNat_eq; simp

/-- Settles O13: `Bnnn` is `goto` of the sum, which completes exactly where `A12` of the sum does. -/
theorem jumpV0AddsRegisterZero : Obligations.JumpV0AddsRegisterZero := by
  intro s nnn
  refine ⟨decodeWord_formNNN_jpV0 nnn, fun h => ?_, goto_error⟩
  rw [ofNat_mod_4096]
  exact goto_ok h

/-! ### The step of an unknown word -/

/-- With no scheduled event the next event is `STEP` (log 8). -/
theorem step_of_schedule_nil {s : State} (h : s.schedule = []) : step s = handle .step s := by
  simp [step, takeTurn, h]

theorem stepReply_of_schedule_nil {s : State} (h : s.schedule = []) : stepReply s = reply .step s := by
  simp [stepReply, nextEvent, h]

theorem execWord_unknown {w : Word} (h : decodeWord w = .error (.unknown w)) (s : State) :
    execWord w s = execUnknown s := by
  simp [execWord, h]

/-- An event that completes reports at most an unknown word. -/
theorem reportOf_next {e : Event} {s t : State} (h : handle e s = .next t) : reportOf e s = unknownReport e s := by
  simp [reportOf, h]

theorem unknownReport_unknown {e : Event} {s : State} {w : Word} (ht : traceOf e s = some w)
    (h : decodeWord w = .error (.unknown w)) : unknownReport e s = .unknownOpcode w := by
  simp [unknownReport, ht, h]

/-- A `STEP` that fetches an unknown word is the normal advance (40_flow.md R136). -/
theorem handle_step_unknown {s : State} {w : Word} (hcs : s.cs = .ready) (hf : fetchWord s = .ok w)
    (h : decodeWord w = .error (.unknown w)) : handle .step s = advance s :=
  (stepEvent_ready hcs hf).trans (execWord_unknown h s)

/-- A completed `STEP` of an unknown word traces the word and reports it (10_state.md R66, 60_exceptions.md R202). -/
theorem reply_step_unknown {s t : State} {w : Word} (hcs : s.cs = .ready) (hf : fetchWord s = .ok w)
    (h : decodeWord w = .error (.unknown w)) (hn : handle .step s = .next t) :
    reply .step s = { trace := some w, report := .unknownOpcode w } := by
  have ht : traceOf .step s = some w := traceOf_step hcs hf
  simp only [reply, ht, reportOf_next hn, unknownReport_unknown ht h]

/-- The fetched word, where the two bytes at PC decode to an unknown word and the fetch raises nothing. -/
theorem fetchWord_of_decode_unknown {s : State} {w : Word} (hfetch : s.CanFetch)
    (hd : decode [s.readByte s.pc, s.readByte (s.pc + 1#12)] = .error (.unknown w)) :
    fetchWord s = .ok w ∧ decodeWord w = .error (.unknown w) := by
  have hw := decode_pair_error hd
  obtain rfl := unknown_eq hw
  exact ⟨fetchWord_ok hfetch, hw⟩

/-- Settles O7: with the schedule empty the step is `STEP`, which fetches the unknown word, advances PC and reports. -/
theorem unknownWordAdvancesAndIsReported : Obligations.UnknownWordAdvancesAndIsReported := by
  intro s w hcs hsched hfetch hadv hd
  obtain ⟨hf, hw⟩ := fetchWord_of_decode_unknown hfetch hd
  have hn : handle .step s = .next (s.setPc (s.pc + 2#12)) := (handle_step_unknown hcs hf hw).trans (advance_ok hadv)
  exact ⟨(step_of_schedule_nil hsched).trans hn,
    (stepReply_of_schedule_nil hsched).trans (reply_step_unknown hcs hf hw hn)⟩

end Machine
end Sys2Proof

/-! ## Skips (41_skip.md) -/

namespace Sys2Proof

theorem decodeWord_formXKK_seImm (x : RegIdx) (kk : Byte) : decodeWord (formXKK 0x3 x kk) = .ok (.seImm x kk) := by
  simp [decodeWord]

theorem decodeWord_formXKK_sneImm (x : RegIdx) (kk : Byte) : decodeWord (formXKK 0x4 x kk) = .ok (.sneImm x kk) := by
  simp [decodeWord]

/-- `5xyn` is an instruction where `n` is 0 (30_encoding.md R105). -/
theorem decodeWord_formXYN_seReg (x y : RegIdx) : decodeWord (formXYN 0x5 x y 0x0) = .ok (.seReg x y) := by
  simp [decodeWord]

/-- `9xyn` is an instruction where `n` is 0 (30_encoding.md R105). -/
theorem decodeWord_formXYN_sneReg (x y : RegIdx) : decodeWord (formXYN 0x9 x y 0x0) = .ok (.sneReg x y) := by
  simp [decodeWord]

namespace Machine

theorem skipIf_of_true {c : Bool} (h : c = true) (s : State) : skipIf c s = advanceSkip s := by
  rw [skipIf, if_pos h]

theorem skipIf_of_false {c : Bool} (h : c = false) (s : State) : skipIf c s = advance s := by
  rw [skipIf, if_neg (ne_true_of_eq_false h)]

theorem skipIf_beq_of_eq {a b : Byte} (h : a = b) (s : State) : skipIf (a == b) s = advanceSkip s :=
  skipIf_of_true (beq_iff_eq.2 h) s

theorem skipIf_beq_of_ne {a b : Byte} (h : a ≠ b) (s : State) : skipIf (a == b) s = advance s :=
  skipIf_of_false (beq_false_of_ne h) s

theorem skipIf_bne_of_ne {a b : Byte} (h : a ≠ b) (s : State) : skipIf (a != b) s = advanceSkip s :=
  skipIf_of_true (bne_iff_ne.2 h) s

theorem skipIf_bne_of_eq {a b : Byte} (h : a = b) (s : State) : skipIf (a != b) s = advance s :=
  skipIf_of_false (by simp [h]) s

/-- The skip on equal bytes and the skip on different bytes, where the advance completes and where it raises: each takes
`PC_SKIP` where the other takes `PC_NEXT`. The second byte is an immediate or a register's. -/
theorem skipIf_beq_bne_spec (s : State) (a b : Byte) :
    (a = b → s.CanSkip → skipIf (a == b) s = .next (s.setPc (s.pc + 4#12))) ∧
    (a ≠ b → s.CanAdvance → skipIf (a == b) s = .next (s.setPc (s.pc + 2#12))) ∧
    (a ≠ b → s.CanSkip → skipIf (a != b) s = .next (s.setPc (s.pc + 4#12))) ∧
    (a = b → s.CanAdvance → skipIf (a != b) s = .next (s.setPc (s.pc + 2#12))) ∧
    (s.params.addrPolicy = .fault → 4092 ≤ s.pc.toNat →
      (a = b → skipIf (a == b) s = .fault (.outOfRange (s.pc.toNat + 4))) ∧
      (a ≠ b → skipIf (a != b) s = .fault (.outOfRange (s.pc.toNat + 4)))) ∧
    (s.params.addrPolicy = .fault → 4094 ≤ s.pc.toNat →
      (a ≠ b → skipIf (a == b) s = .fault (.outOfRange (s.pc.toNat + 2))) ∧
      (a = b → skipIf (a != b) s = .fault (.outOfRange (s.pc.toNat + 2)))) := by
  refine ⟨fun h hs => ?_, fun h ha => ?_, fun h hs => ?_, fun h ha => ?_, fun hp hpc => ?_, fun hp hpc => ?_⟩
  · rw [skipIf_beq_of_eq h, advanceSkip_ok hs]
  · rw [skipIf_beq_of_ne h, advance_ok ha]
  · rw [skipIf_bne_of_ne h, advanceSkip_ok hs]
  · rw [skipIf_bne_of_eq h, advance_ok ha]
  · have he := advanceSkip_error hp hpc
    exact ⟨fun h => (skipIf_beq_of_eq h s).trans he, fun h => (skipIf_bne_of_ne h s).trans he⟩
  · have he := advance_error hp hpc
    exact ⟨fun h => (skipIf_beq_of_ne h s).trans he, fun h => (skipIf_bne_of_eq h s).trans he⟩

/-- Settles O18: `3xkk` and `4xkk` are the two skips on the bytes `V[x]` and `kk`. -/
theorem skipsOnImmediate : Obligations.SkipsOnImmediate := by
  intro s x kk
  exact ⟨decodeWord_formXKK_seImm x kk, decodeWord_formXKK_sneImm x kk, skipIf_beq_bne_spec s (s.reg x) kk⟩

/-- Settles O19: `5xy0` and `9xy0` are the two skips on the bytes `V[x]` and `V[y]`. -/
theorem skipsOnRegisters : Obligations.SkipsOnRegisters := by
  intro s x y
  exact ⟨decodeWord_formXYN_seReg x y, decodeWord_formXYN_sneReg x y, skipIf_beq_bne_spec s (s.reg x) (s.reg y)⟩

end Machine
end Sys2Proof

/-! ## Registers (42_alu.md) -/

namespace Sys2Proof

theorem decodeWord_formXKK_ldImm (x : RegIdx) (kk : Byte) : decodeWord (formXKK 0x6 x kk) = .ok (.ldImm x kk) := by
  simp [decodeWord]

theorem decodeWord_formXKK_addImm (x : RegIdx) (kk : Byte) : decodeWord (formXKK 0x7 x kk) = .ok (.addImm x kk) := by
  simp [decodeWord]

/-- `8xyn` is the register move where `n` is 0 (30_encoding.md R105). -/
theorem decodeWord_formXYN_ldReg (x y : RegIdx) : decodeWord (formXYN 0x8 x y 0x0) = .ok (.ldReg x y) := by
  simp [decodeWord, decode8]

namespace Machine

/-- A register write followed by the normal advance: the write keeps PC and the address policy, so the advance completes
where it would have before the write. -/
theorem advance_setReg {s : State} (h : s.CanAdvance) (x : RegIdx) (b : Byte) :
    advance (s.setReg x b) = .next ((s.setReg x b).setPc (s.pc + 2#12)) := by
  have hw : (s.setReg x b).CanAdvance := h
  rw [advance_ok hw, setReg_pc]

/-- Settles O21: `6xkk` writes `kk` and advances. -/
theorem loadImmediateSetsRegister : Obligations.LoadImmediateSetsRegister := by
  intro s x kk
  exact ⟨decodeWord_formXKK_ldImm x kk, fun h => advance_setReg h x kk⟩

/-- Settles O22: `7xkk` writes the sum of bytes and advances. -/
theorem addImmediateLosesTheCarry : Obligations.AddImmediateLosesTheCarry := by
  intro s x kk
  refine ⟨decodeWord_formXKK_addImm x kk, fun h => ?_⟩
  rw [← add_eq_ofNat]
  exact advance_setReg h x (s.reg x + kk)

/-- Settles O23: `8xy0` writes `V[y]` and advances. -/
theorem moveCopiesRegister : Obligations.MoveCopiesRegister := by
  intro s x y
  exact ⟨decodeWord_formXYN_ldReg x y, fun h => advance_setReg h x (s.reg y)⟩

end Machine
end Sys2Proof

/-! ## Address register and memory (43_index_memory.md) -/

namespace Sys2Proof

theorem decodeWord_formNNN_ldI (nnn : Addr) : decodeWord (formNNN 0xA nnn) = .ok (.ldI nnn) := by
  simp [decodeWord]

theorem decodeWord_formXKK_ldB (x : RegIdx) : decodeWord (formXKK 0xF x 0x33) = .ok (.ldB x) := by
  simp [decodeWord, decodeF]

namespace Machine

/-- A write of `I` followed by the normal advance: the write keeps PC and the address policy. -/
theorem advance_setI {s : State} (h : s.CanAdvance) (a : Addr) :
    advance (s.setI a) = .next ((s.setI a).setPc (s.pc + 2#12)) := by
  have hw : (s.setI a).CanAdvance := h
  rw [advance_ok hw, setI_pc]

/-- Settles O29: `Annn` writes `I` and advances. -/
theorem loadIndexSetsI : Obligations.LoadIndexSetsI := by
  intro s nnn
  exact ⟨decodeWord_formNNN_ldI nnn, fun h => advance_setI h nnn⟩

/-! ### Stores through the operand addresses -/

/-- Under `FAULT` an operand range that runs past the last address raises 4096, the first address past it. -/
theorem withOperands_error {s : State} {n : Nat} (k : List Addr → Result) (hp : s.params.addrPolicy = .fault)
    (hn : 4096 < s.i.toNat + n) : withOperands s n k = .fault (.outOfRange 4096) := by
  rcases withOperands_cases s n k with ⟨hok, _⟩ | ⟨_, _, he⟩
  · rcases hok with hw | hle
    · exact absurd (hw.symm.trans hp) (by decide)
    · exact absurd hle (Nat.not_le.2 hn)
  · exact he

/-- Bytes stored in memory, followed by the normal advance: the stores keep PC and the address policy. -/
theorem advance_storeBytes {s : State} (h : s.CanAdvance) (as : List Addr) (bs : List Byte) :
    advance (s.storeBytes as bs) = .next ((s.storeBytes as bs).setPc (s.pc + 2#12)) := by
  obtain ⟨hmem, _, _⟩ := storeBytes_spec as bs s
  rw [hmem]
  exact advance_ok (s := s.setMem _) h

/-- The bytes stored at the operand addresses are read back, each at its own: up to 4096 of them do not overlap. -/
theorem readByte_storeBytes_operandAddr (s : State) {n k : Nat} {bs : List Byte} (hn : n ≤ 4096) (hk : k < n)
    (hb : k < bs.length) :
    (s.storeBytes ((List.range n).map s.operandAddr) bs).readByte (s.operandAddr k) = bs[k] := by
  have h := readByte_storeBytes ((List.range n).map s.operandAddr) bs s k (by simpa using hk) hb
    (operandAddrs_nodup s hn)
  simpa using h

/-- An address that is none of the operand addresses reads as before the store. -/
theorem readByte_storeBytes_of_ne_operandAddr (s : State) {n : Nat} (bs : List Byte) {a : Addr}
    (ha : ∀ k, k < n → a ≠ s.operandAddr k) :
    (s.storeBytes ((List.range n).map s.operandAddr) bs).readByte a = s.readByte a := by
  obtain ⟨_, _, hother⟩ := storeBytes_spec ((List.range n).map s.operandAddr) bs s
  refine hother a fun hmem => ?_
  obtain ⟨k, hk, rfl⟩ := List.mem_map.1 hmem
  exact ha k (List.mem_range.1 hk) rfl

/-- A store of `n` bytes at `I`, `I + 1`, … that completes (20_memory.md R85): it writes those bytes, advances PC and
changes nothing else. The instruction is `Fx33` or `Fx55`. -/
theorem withOperands_storeBytes_spec {s : State} {n : Nat} {bs : List Byte} (hlen : bs.length = n) (hn : n ≤ 4096)
    (hops : s.OperandsOk n) (hadv : s.CanAdvance) :
    ∃ t, withOperands s n (fun as => advance (s.storeBytes as bs)) = .next t ∧
      t = { s with mem := t.mem, pc := s.pc + 2#12 } ∧
      (∀ k (hk : k < bs.length), t.readByte (s.operandAddr k) = bs[k]) ∧
      ∀ a, (∀ k, k < n → a ≠ s.operandAddr k) → t.readByte a = s.readByte a := by
  refine ⟨(s.storeBytes ((List.range n).map s.operandAddr) bs).setPc (s.pc + 2#12), ?_, ?_, fun k hk => ?_,
    fun a ha => ?_⟩
  · rw [withOperands_ok _ hops, advance_storeBytes hadv]
  · obtain ⟨hmem, _, _⟩ := storeBytes_spec ((List.range n).map s.operandAddr) bs s
    rw [hmem]
    rfl
  · exact readByte_storeBytes_operandAddr s hn (hlen ▸ hk) hk
  · exact readByte_storeBytes_of_ne_operandAddr s bs ha

/-! ### Decimal digits -/

@[simp] theorem length_decimalDigits (b : Byte) : (decimalDigits b).length = 3 := rfl

/-- The quotients are digits of a value below 256, so none of them is cut to a byte. -/
theorem toNat_decimalDigits (b : Byte) :
    ((decimalDigits b)[0]'(by simp)).toNat = b.toNat / 100 ∧
    ((decimalDigits b)[1]'(by simp)).toNat = b.toNat / 10 % 10 ∧
    ((decimalDigits b)[2]'(by simp)).toNat = b.toNat % 10 := by
  have hb := b.isLt
  refine ⟨?_, ?_, ?_⟩ <;> simp [decimalDigits] <;> omega

/-- Settles O32: `Fx33` is the store of the three digits at the operand addresses. -/
theorem decimalDigitsAreStored : Obligations.DecimalDigitsAreStored := by
  intro s x
  refine ⟨decodeWord_formXKK_ldB x, fun hops hadv => ?_, fun hp hi => withOperands_error _ hp (by omega)⟩
  have hops : s.OperandsOk 3 := hops.imp_right (by omega)
  obtain ⟨t, hnext, hframe, hread, hother⟩ :=
    withOperands_storeBytes_spec (length_decimalDigits (s.reg x)) (by decide) hops hadv
  obtain ⟨hundreds, tens, ones⟩ := toNat_decimalDigits (s.reg x)
  have hdigit := fun k hk => congrArg BitVec.toNat (hread k hk)
  exact ⟨t, hnext, hframe, (hdigit 0 (by simp)).trans hundreds, (hdigit 1 (by simp)).trans tens,
    (hdigit 2 (by simp)).trans ones, hother⟩

end Machine
end Sys2Proof

/-! ## Display (44_display.md) -/

namespace Sys2Proof

/-- `00E0` is an exact pattern, so it is `CLS` and not a `0nnn` (30_encoding.md R106). -/
theorem decodeWord_cls : decodeWord 0x00E0 = .ok .cls := rfl

namespace Machine

@[simp] theorem pixelAt_clearScreen (r : Fin 32) (c : Fin 64) : pixelAt clearScreen r c = false := by
  simp [pixelAt, clearScreen]

/-- A write of the framebuffer followed by the normal advance: the write keeps PC and the address policy. -/
theorem advance_setFb {s : State} (h : s.CanAdvance) (f : FrameBuffer) :
    advance (s.setFb f) = .next ((s.setFb f).setPc (s.pc + 2#12)) := by
  have hw : (s.setFb f).CanAdvance := h
  rw [advance_ok hw, setFb_pc]

/-- Settles O36: `00E0` writes the empty screen and advances. -/
theorem clearScreenClearsEveryPixel : Obligations.ClearScreenClearsEveryPixel := by
  refine ⟨decodeWord_cls, fun s h => ?_⟩
  exact ⟨(s.setFb clearScreen).setPc (s.pc + 2#12), advance_setFb h clearScreen, rfl, pixelAt_clearScreen⟩

end Machine
end Sys2Proof

/-! ## Timers, key wait and the external events (45_timer_key.md) -/

namespace Sys2Proof.Machine

/-- `RELEASE(k)` is one key write; unlike `PRESS` and `TICK` it does not look at the control state (R195). -/
theorem handle_release (k : Nibble) (s : State) : handle (.release k) s = .next (s.setKey k false) := rfl

/-- Settles O44: the key write that `RELEASE(k)` is updates no field but `key`, so the control state, and with it any
wait, stays. -/
theorem releaseClearsItsKeyOnly : Obligations.ReleaseClearsItsKeyOnly := by
  intro s k
  rw [handle_release, State.setKey]

end Sys2Proof.Machine

/-! ## Fatal errors (60_exceptions.md) -/

namespace Sys2Proof.Machine

/-- `SP` counts the return addresses, so `SP = 0` is the stack without a top (10_state.md R47). -/
theorem State.top_eq_none_iff (s : State) : s.top = none ↔ s.sp = 0 := by
  rw [State.top, State.sp, List.getLast?_eq_none_iff, List.length_eq_zero_iff]

/-- A return that finds no address to return to raises the fatal error (40_flow.md R132). -/
theorem execRet_of_top_eq_none {s : State} (h : s.top = none) : execRet s = .fault .stackUnderflow := by
  rw [execRet, h, raise]

/-- Settles O16: with `SP = 0` the stack has no top, which is the return's error case. -/
theorem returnOnEmptyStackIsFatal : Obligations.ReturnOnEmptyStackIsFatal := by
  intro s hsp
  have htop : s.top = none := s.top_eq_none_iff.2 hsp
  exact execRet_of_top_eq_none htop

end Sys2Proof.Machine

/-! ## Encoding (30_encoding.md) -/

namespace Sys2Proof

/-- The exact patterns `00E0` and `00EE` are the only ones that R106 takes from `0nnn`. -/
theorem wellFormed_sys {nnn : Addr} (h : (Instr.sys nnn).wellFormed = true) :
    formNNN 0x0 nnn ≠ 0x00E0 ∧ formNNN 0x0 nnn ≠ 0x00EE := by
  simp only [Instr.wellFormed, Bool.and_eq_true, bne_iff_ne] at h
  exact ⟨fun e => h.1 (by rw [← fieldNNN_formNNN 0x0 nnn, e]; rfl),
    fun e => h.2 (by rw [← fieldNNN_formNNN 0x0 nnn, e]; rfl)⟩

/-- Decoding the word of a well-formed instruction gives it back: the decoder reads the fields that the format wrote. -/
theorem decodeWord_encodeWord {i : Instr} (h : i.wellFormed = true) : decodeWord (encodeWord i) = .ok i := by
  cases i
  case cls => rfl
  case ret => rfl
  case sys nnn => exact decodeWord_formNNN_sys (wellFormed_sys h).1 (wellFormed_sys h).2
  case ldReg | orReg | andReg | xorReg | addReg | subReg | shr | subnReg | shl => simp [encodeWord, decodeWord, decode8]
  case skp | sknp => simp [encodeWord, decodeWord, decodeE]
  case ldVxDT | ldVxK | ldDTVx | addI | ldF | ldB | stRegs | ldRegs => simp [encodeWord, decodeWord, decodeF]
  all_goals simp [encodeWord, decodeWord]

/-- Settles O2: the two bytes of a word compose to it again, and the word decodes to the instruction. -/
theorem decodeOfEncodeGivesInstruction : Obligations.DecodeOfEncodeGivesInstruction := by
  intro i rest h
  simp [encode, bytesOfWord, decode, decodeWord_encodeWord h]

/-! ### The word of a decoded instruction -/

theorem decode0_encode {w : Word} (hop : fieldOp w = 0x0) :
    (decode0 w).wellFormed = true ∧ encodeWord (decode0 w) = w := by
  unfold decode0
  split
  · next h => exact ⟨rfl, h.symm⟩
  · next hcls =>
    split
    · next h => exact ⟨rfl, h.symm⟩
    · next hret =>
      have hw : formNNN 0x0 (fieldNNN w) = w := formNNN_eq hop rfl
      refine ⟨?_, hw⟩
      simp only [Instr.wellFormed, Bool.and_eq_true, bne_iff_ne]
      exact ⟨fun e => hcls (by rw [← hw, e]; rfl), fun e => hret (by rw [← hw, e]; rfl)⟩

theorem decode8_encode {w : Word} {i : Instr} (hop : fieldOp w = 0x8) (h : decode8 w = .ok i) :
    i.wellFormed = true ∧ encodeWord i = w := by
  unfold decode8 at h
  split at h <;> cases h <;> exact ⟨rfl, formXYN_eq hop rfl rfl ‹fieldN w = _›⟩

theorem decodeE_encode {w : Word} {i : Instr} (hop : fieldOp w = 0xE) (h : decodeE w = .ok i) :
    i.wellFormed = true ∧ encodeWord i = w := by
  unfold decodeE at h
  split at h <;> cases h <;> exact ⟨rfl, formXKK_eq hop rfl ‹fieldKK w = _›⟩

theorem decodeF_encode {w : Word} {i : Instr} (hop : fieldOp w = 0xF) (h : decodeF w = .ok i) :
    i.wellFormed = true ∧ encodeWord i = w := by
  unfold decodeF at h
  split at h <;> cases h <;> exact ⟨rfl, formXKK_eq hop rfl ‹fieldKK w = _›⟩

/-- Settles O3: along the decoder's branches, each of which keeps every field that the format writes. -/
theorem encodeOfDecodeGivesWord : Obligations.EncodeOfDecodeGivesWord := by
  intro w i h
  unfold decodeWord at h
  split at h
  case h_1 hop => cases h; exact decode0_encode hop
  case h_6 hop | h_10 hop =>
    split at h
    · next hn => cases h; exact ⟨rfl, formXYN_eq hop rfl rfl hn⟩
    · cases h
  case h_9 hop => exact decode8_encode hop h
  case h_15 hop => exact decodeE_encode hop h
  case h_16 =>
    simp only [imp_false] at *
    exact decodeF_encode (by bv_omega) h
  case h_14 hop => cases h; exact ⟨rfl, formXYN_eq hop rfl rfl rfl⟩
  case h_2 hop | h_3 hop | h_11 hop | h_12 hop => cases h; exact ⟨rfl, formNNN_eq hop rfl⟩
  case h_4 hop | h_5 hop | h_7 hop | h_8 hop | h_13 hop => cases h; exact ⟨rfl, formXKK_eq hop rfl rfl⟩

/-! ### The unknown words -/

theorem decode8_error_iff (w : Word) :
    decode8 w = .error (.unknown w) ↔ fieldN w ∈ [0x8, 0x9, 0xA, 0xB, 0xC, 0xD, 0xF] := by
  unfold decode8
  split
  case h_10 =>
    simp only [imp_false] at *
    simp; bv_omega
  all_goals next h => simp [h]

theorem decodeE_error_iff (w : Word) : decodeE w = .error (.unknown w) ↔ fieldKK w ∉ [0x9E, 0xA1] := by
  unfold decodeE
  split <;> simp_all

theorem decodeF_error_iff (w : Word) :
    decodeF w = .error (.unknown w) ↔ fieldKK w ∉ [0x07, 0x0A, 0x15, 0x1E, 0x29, 0x33, 0x55, 0x65] := by
  unfold decodeF
  split <;> simp_all

/-- Settles O5: along the decoder's branches; the three that look at a second field have their own list. -/
theorem unknownWordsAreTheListedOnes : Obligations.UnknownWordsAreTheListedOnes := by
  intro w
  unfold decodeWord
  split
  case h_9 hop => rw [decode8_error_iff]; simp [hop]
  case h_15 hop => rw [decodeE_error_iff]; simp [hop]
  case h_16 =>
    simp only [imp_false] at *
    have hop : fieldOp w = 0xF := by bv_omega
    rw [decodeF_error_iff]; simp [hop]
  all_goals next hop => simp [hop]

/-! ### The opcode table: which words a row accepts (30_encoding.md R103), by the digits it fixes -/

theorem and_maskOp (w : Word) : w &&& 0xF000 = formNNN (fieldOp w) 0 := by
  calc w &&& 0xF000
      = formNNN (fieldOp w) (fieldNNN w) &&& 0xF000 := by rw [formNNN_fields]
    _ = formNNN (fieldOp w) 0 := Laws.TableRow.formNNN_mask _ _

theorem and_maskOpN (w : Word) : w &&& 0xF00F = formXYN (fieldOp w) 0 0 (fieldN w) := by
  calc w &&& 0xF00F
      = formXYN (fieldOp w) (fieldX w) (fieldY w) (fieldN w) &&& 0xF00F := by rw [formXYN_fields]
    _ = formXYN (fieldOp w) 0 0 (fieldN w) := Laws.TableRow.formXYN_maskN _ _ _ _

theorem and_maskOpKK (w : Word) : w &&& 0xF0FF = formXKK (fieldOp w) 0 (fieldKK w) := by
  calc w &&& 0xF0FF
      = formXKK (fieldOp w) (fieldX w) (fieldKK w) &&& 0xF0FF := by rw [formXKK_fields]
    _ = formXKK (fieldOp w) 0 (fieldKK w) := Laws.TableRow.formXKK_maskKK _ _ _

theorem accepts_iff (k : Nat) (mask value w : Word) :
    (OpcodeRow.mk k mask value).accepts w = true ↔ w &&& mask = value := beq_iff_eq

/-- All four digits fixed; the leading one is named so that a word with another leading digit is seen not to match. -/
theorem accepts_word (k : Nat) (value w : Word) :
    (OpcodeRow.mk k 0xFFFF value).accepts w = decide (fieldOp w = value.extractLsb' 12 4 ∧ w = value) := by
  have hw : w &&& 0xFFFF = w := BitVec.and_allOnes
  rw [Bool.eq_iff_iff, accepts_iff, decide_eq_true_iff, hw]
  exact ⟨fun e => ⟨congrArg fieldOp e, e⟩, And.right⟩

theorem accepts_op (k : Nat) {value : Word} (w : Word) (hv : formNNN (fieldOp value) 0 = value) :
    (OpcodeRow.mk k 0xF000 value).accepts w = decide (fieldOp w = value.extractLsb' 12 4) := by
  rw [Bool.eq_iff_iff, accepts_iff, decide_eq_true_iff, and_maskOp]
  exact ⟨fun e => (fieldOp_formNNN ..).symm.trans (congrArg fieldOp e), fun e => (congrArg (formNNN · 0) e).trans hv⟩

theorem accepts_op_n (k : Nat) {value : Word} (w : Word) (hv : formXYN (fieldOp value) 0 0 (fieldN value) = value) :
    (OpcodeRow.mk k 0xF00F value).accepts w =
      decide (fieldOp w = value.extractLsb' 12 4 ∧ fieldN w = value.extractLsb' 0 4) := by
  rw [Bool.eq_iff_iff, accepts_iff, decide_eq_true_iff, and_maskOpN]
  refine ⟨fun e => ⟨(fieldOp_formXYN ..).symm.trans (congrArg fieldOp e),
      (fieldN_formXYN ..).symm.trans (congrArg fieldN e)⟩,
    fun ⟨hop, hn⟩ => ?_⟩
  rw [show fieldOp w = fieldOp value from hop, show fieldN w = fieldN value from hn, hv]

theorem accepts_op_kk (k : Nat) {value : Word} (w : Word) (hv : formXKK (fieldOp value) 0 (fieldKK value) = value) :
    (OpcodeRow.mk k 0xF0FF value).accepts w =
      decide (fieldOp w = value.extractLsb' 12 4 ∧ fieldKK w = value.extractLsb' 0 8) := by
  rw [Bool.eq_iff_iff, accepts_iff, decide_eq_true_iff, and_maskOpKK]
  refine ⟨fun e => ⟨(fieldOp_formXKK ..).symm.trans (congrArg fieldOp e),
      (fieldKK_formXKK ..).symm.trans (congrArg fieldKK e)⟩,
    fun ⟨hop, hkk⟩ => ?_⟩
  rw [show fieldOp w = fieldOp value from hop, show fieldKK w = fieldKK value from hkk, hv]

/-- Settles O4: the decoder's branches are gone through one by one; the digits that select a branch decide every row of
the table. -/
theorem decoderAgreesWithOpcodeTable : Obligations.DecoderAgreesWithOpcodeTable := by
  intro w
  simp (disch := decide) only [opcodeTable, List.cons_append, List.nil_append, List.find?_cons, List.find?_nil,
    accepts_word, accepts_op, accepts_op_n, accepts_op_kk]
  unfold decodeWord
  split
  case h_1 hop =>
    unfold decode0
    split
    · simp_all [Except.toOption, Instr.order]
    · split <;> simp_all [Except.toOption, Instr.order]
  case h_6 hop | h_10 hop => split <;> simp_all [Except.toOption, Instr.order]
  case h_9 hop => unfold decode8; split <;> simp_all [Except.toOption, Instr.order]
  case h_15 hop => unfold decodeE; split <;> simp_all [Except.toOption, Instr.order]
  case h_16 =>
    simp only [imp_false] at *
    have hop : fieldOp w = 0xF := by bv_omega
    unfold decodeF; split <;> simp_all [Except.toOption, Instr.order]
  all_goals next hop => simp [hop, Except.toOption, Instr.order]

end Sys2Proof

/-! ## What an instruction writes -/

namespace Sys2Proof.Machine

/-- The pieces of state but PC and the registers, each unchanged by the effect of an instruction that is not one of its
writers. -/
theorem effect_writers (i : Instr) (s : State) :
    ((∀ x, i ≠ .ldB x) → (∀ x, i ≠ .stRegs x) → (effect i s).mem = s.mem) ∧
    (i ≠ .cls → (∀ x y n, i ≠ .drw x y n) → (effect i s).fb = s.fb) ∧
    (i ≠ .ret → (∀ nnn, i ≠ .call nnn) → (effect i s).stack = s.stack) ∧
    ((∀ nnn, i ≠ .ldI nnn) → (∀ x, i ≠ .addI x) → (∀ x, i ≠ .ldF x) → (effect i s).i = s.i) ∧
    ((∀ x, i ≠ .ldDTVx x) → (effect i s).dt = s.dt) ∧
    ((∀ x, i ≠ .ldDTVx x) → (∀ x, i ≠ .ldVxK x) → (effect i s).cs = s.cs) ∧
    ((∀ x kk, i ≠ .rnd x kk) → (effect i s).draws = s.draws) := by
  cases i
  case ldDTVx => simp only [effect]; split <;> simp
  case ldB | stRegs => simp only [effect]; rw [(storeBytes_spec _ _ s).1]; simp
  case ldRegs => simp only [effect]; rw [loadRegs_frame]; simp
  all_goals simp [effect, flagThen]

/-- Settles O54: PC is in none of the clauses, so the effect alone decides them. -/
theorem eachStateHasOnlyItsWriters : Obligations.EachStateHasOnlyItsWriters := by
  intro i s t h
  obtain ⟨a, rfl⟩ := exec_next h
  obtain ⟨hmem, hfb, hstack, hi, hdt, hcs, hdraws⟩ := effect_writers i s
  obtain ⟨hparams, hschedule, hst, hkey, -⟩ := effect_frame i s
  refine ⟨fun h₁ h₂ c => readByte_congr (hmem h₁ h₂) c, fun h₁ h₂ r c => ?_, hstack, hi, hdt, hcs, hdraws, hst,
    fun k => ?_, hparams, hschedule⟩
  · exact congrArg (pixelAt · r c) (hfb h₁ h₂)
  · simp [State.keyDown, hkey]

/-- A flag-writing instruction writes VF and its destination alone. -/
theorem reg_flagThen_other (s : State) (flag : Byte) {x r : RegIdx} (result : State → Byte) (hx : r ≠ x)
    (hf : r ≠ VF) : (flagThen s flag x result).reg r = s.reg r := by
  rw [flagThen, reg_setReg_other _ _ hx, reg_setReg_other _ _ hf]

theorem reg_effect_of_not_writesReg {i : Instr} {r : RegIdx} (s : State) (h : writesReg i r = false) :
    (effect i s).reg r = s.reg r := by
  cases i
  case ldImm | addImm | ldReg | orReg | andReg | xorReg | rnd | ldVxDT | drw =>
    exact reg_setReg_other _ _ (by simpa [writesReg] using h)
  case addReg | subReg | shr | subnReg | shl =>
    simp only [writesReg, Bool.or_eq_false_iff, beq_eq_false_iff_ne] at h
    exact reg_flagThen_other _ _ _ h.1 h.2
  case ldRegs x =>
    have hx := x.isLt
    have hr : ¬ r.toNat < x.toNat + 1 := by simpa [writesReg, Nat.lt_succ_iff] using h
    rw [effect, reg_loadRegs _ _ _ _ (by simp; omega), if_neg (by simpa using hr)]
  case ldDTVx => simp only [effect]; split <;> rfl
  case ldB | stRegs => simp only [effect]; rw [(storeBytes_spec _ _ s).1]; rfl
  all_goals rfl

/-- Settles O55: PC is no register, so the effect alone decides it. -/
theorem onlyNamedRegistersAreWritten : Obligations.OnlyNamedRegistersAreWritten := by
  intro i s t r h hw
  obtain ⟨a, rfl⟩ := exec_next h
  exact reg_effect_of_not_writesReg s hw

/-- Settles O56: the effect of each is a store at its operand addresses. -/
theorem storesTouchOnlyTheirBytes : Obligations.StoresTouchOnlyTheirBytes := by
  intro s t x a
  constructor
  · intro h ha
    obtain ⟨c, rfl⟩ := exec_next h
    exact readByte_storeBytes_of_ne_operandAddr s _ ha
  · intro h ha
    obtain ⟨c, rfl⟩ := exec_next h
    exact readByte_storeBytes_of_ne_operandAddr s _ fun k hk => ha k (Nat.le_of_lt_succ hk)

/-! ## Fatal errors of an instruction -/

/-- What a call does: it raises on a full stack, and completes on any other. -/
theorem execCall_cases (nnn : Addr) (s : State) :
    (stackFull s.params.stackDepth s.sp = true ∧ execCall nnn s = .fault .stackOverflow) ∨
    (stackFull s.params.stackDepth s.sp = false ∧ execCall nnn s = .next ((s.push s.pc).setPc nnn)) := by
  cases h : stackFull s.params.stackDepth s.sp
  · exact .inr ⟨rfl, by simp [execCall, h]⟩
  · exact .inl ⟨rfl, by simp [execCall, h, raise]⟩

/-- What a return does: it raises on an empty stack, and goes on from the last entry of any other. -/
theorem execRet_cases (s : State) :
    (s.stack = [] ∧ execRet s = .fault .stackUnderflow) ∨
    (∃ l a, s.stack = l ++ [a] ∧
      execRet s = if s.params.retAdvance then goto (s.setStack l) (a.toNat + 2) else .next ((s.setStack l).setPc a)) := by
  rcases List.eq_nil_or_concat s.stack with h | ⟨l, a, h⟩
  · exact .inl ⟨h, execRet_of_top_eq_none (by simp [State.top, h])⟩
  · refine .inr ⟨l, a, by simpa using h, ?_⟩
    simp [execRet, State.top, State.pop, h]

@[simp] theorem storeBytes_params (s : State) (as : List Addr) (bs : List Byte) :
    (s.storeBytes as bs).params = s.params := by
  rw [(storeBytes_spec as bs s).1, setMem_params]

@[simp] theorem loadRegs_params (s : State) (j : Nat) (bs : List Byte) : (s.loadRegs j bs).params = s.params := by
  rw [loadRegs_frame]

/-- What follows a change that keeps the parameters can raise `OutOfRange` alone. -/
theorem goto_fault_of_params {s u : State} {v : Nat} {f : Fault} (h : goto u v = .fault f) (hu : u.params = s.params) :
    ∃ v, f = .outOfRange v ∧ 4095 < v ∧ s.params.addrPolicy = .fault := hu ▸ goto_fault h

theorem withOperands_advance_fault {s : State} {n : Nat} {u : List Addr → State} {f : Fault}
    (h : withOperands s n (fun as => advance (u as)) = .fault f) (hu : ∀ as, (u as).params = s.params) :
    ∃ v, f = .outOfRange v ∧ 4095 < v ∧ s.params.addrPolicy = .fault := by
  rcases withOperands_fault h with h | h
  · exact h
  · exact goto_fault_of_params h (hu _)

/-- Settles O49: only a return and a call look at the stack; whatever else an instruction raises, an address computation
raised. -/
theorem fatalErrorsComeOnlyFromTheirCauses : Obligations.FatalErrorsComeOnlyFromTheirCauses := by
  intro i s f h
  cases i
  case ret =>
    rcases execRet_cases s with ⟨hs, e⟩ | ⟨l, a, -, e⟩ <;> rw [exec, e] at h
    · cases h; exact .inl ⟨rfl, rfl, hs⟩
    · split at h
      · exact .inr (.inr (goto_fault_of_params h rfl))
      · cases h
  case call nnn =>
    rcases execCall_cases nnn s with ⟨hs, e⟩ | ⟨-, e⟩ <;> rw [exec, e] at h <;> cases h
    exact .inr (.inl ⟨rfl, ⟨nnn, rfl⟩, (stackFull_iff ..).1 hs⟩)
  all_goals refine .inr (.inr ?_)
  case jp | ldVxK => cases h
  case seImm | sneImm | seReg | sneReg | skp | sknp => exact skipIf_fault h
  case ldDTVx =>
    simp only [exec, execLdDTVx] at h
    split at h
    · exact goto_fault_of_params h rfl
    · cases h
  case addI =>
    rcases withAddr_fault h with h | h
    · exact ⟨_, h⟩
    · exact goto_fault_of_params h rfl
  case drw => exact withOperands_advance_fault h fun _ => rfl
  case ldB | stRegs => exact withOperands_advance_fault h fun _ => storeBytes_params ..
  case ldRegs => exact withOperands_advance_fault h fun _ => loadRegs_params ..
  all_goals exact goto_fault_of_params h rfl

/-- Settles O50: an instruction is never refused, and under `WRAP` the only faults left are the two stack errors. -/
theorem everyInstructionCompletesUnderWrap : Obligations.EveryInstructionCompletesUnderWrap := by
  intro i s hp hs
  cases h : exec i s with
  | next t => exact ⟨t, rfl⟩
  | refused r => exact absurd h (exec_not_refused i s r)
  | fault f =>
    rcases fatalErrorsComeOnlyFromTheirCauses i s f h with ⟨-, hi, he⟩ | ⟨-, hi, hf⟩ | ⟨v, -, -, hf⟩
    · exact absurd (.inl ⟨hi, he⟩) hs
    · exact absurd (.inr ⟨hi, (stackFull_iff ..).2 hf⟩) hs
    · exact absurd (hp.symm.trans hf) (by decide)

end Sys2Proof.Machine

/-! ## What the events can do -/

namespace Sys2Proof.Machine

/-- The tick with which the delay timer runs out ends a timer wait (45_timer_key.md R193). -/
theorem tick_last {s : State} (hcs : s.cs = .timerWait) (hdt : countDown s.dt = 0) :
    tick s = advance (s.countTimers.setCs .ready) := if_pos ⟨hcs, hdt⟩

theorem tick_not_last {s : State} (h : s.cs = .timerWait → countDown s.dt ≠ 0) : tick s = .next s.countTimers :=
  if_neg fun ⟨hcs, hdt⟩ => h hcs hdt

/-- What `TICK` does: it ends a timer wait whose timer runs out, and else counts down alone. -/
theorem tick_cases (s : State) :
    (s.cs = .timerWait ∧ countDown s.dt = 0 ∧ tick s = advance (s.countTimers.setCs .ready)) ∨
    ((s.cs = .timerWait → countDown s.dt ≠ 0) ∧ tick s = .next s.countTimers) := by
  by_cases h : s.cs = .timerWait ∧ countDown s.dt = 0
  · exact .inl ⟨h.1, h.2, tick_last h.1 h.2⟩
  · have hne := fun hcs hdt => h ⟨hcs, hdt⟩
    exact .inr ⟨hne, tick_not_last hne⟩

/-- A key press ends a key wait (R194). -/
theorem press_waiting {s : State} {wx : RegIdx} (k : Nibble) (hcs : s.cs = .keyWait wx) :
    press k s = advance (((s.setKey k true).setReg wx (byteOfKey k)).setCs .ready) := by simp only [press, hcs]

/-- With no key wait to end, a key press writes the key alone. -/
theorem press_not_waiting {s : State} (k : Nibble) (hcs : ∀ wx, s.cs ≠ .keyWait wx) :
    press k s = .next (s.setKey k true) := by
  cases h : s.cs with
  | keyWait wx => exact absurd h (hcs wx)
  | ready | timerWait => simp only [press, h]

/-- What `PRESS(k)` does: it ends a key wait, and else writes the key alone. -/
theorem press_cases (k : Nibble) (s : State) :
    (∃ wx, s.cs = .keyWait wx ∧ press k s = advance (((s.setKey k true).setReg wx (byteOfKey k)).setCs .ready)) ∨
    ((∀ wx, s.cs ≠ .keyWait wx) ∧ press k s = .next (s.setKey k true)) := by
  cases h : s.cs with
  | keyWait wx => exact .inl ⟨wx, rfl, press_waiting k h⟩
  | ready | timerWait => exact .inr ⟨by simp, press_not_waiting k (by simp [h])⟩

/-- What `LOAD(rom)` does: it refuses a ROM that does not fit (70_reset_and_hazards.md R233). -/
theorem load_next {rom : List Byte} {s t : State} (h : load rom s = .next t) : rom.length ≤ 3584 ∧ t = loaded rom s := by
  unfold load at h
  split at h
  · next hl => cases h; exact ⟨hl, rfl⟩
  · cases h

/-! ## The invariant -/

theorem blockedHere_of_ready {s : State} (h : s.cs = .ready) : s.BlockedHere := by simp [State.BlockedHere, h]

/-- The invariant of a core that is not waiting. -/
theorem inv_of_ready {s : State} (hmem : s.mem.wf = true) (hcs : s.cs = .ready) (hdt : s.dt = 0) (hst : s.st = 0)
    (hstack : StackFits s.params.stackDepth s.sp) : s.Inv :=
  ⟨hmem, by simp [hcs, hdt], hst, hstack, blockedHere_of_ready hcs⟩

/-- Only a timer wait has the delay timer running (10_state.md R56(a)). -/
theorem dt_of_not_timerWait {s : State} (h : s.Inv) (hcs : s.cs ≠ .timerWait) : s.dt = 0 :=
  Decidable.byContradiction fun hdt => hcs (h.timer.2 hdt)

theorem dt_of_ready {s : State} (h : s.Inv) (hcs : s.cs = .ready) : s.dt = 0 :=
  dt_of_not_timerWait h (by simp [hcs])

/-- The invariant reads neither the registers, nor `I`, nor the keys, nor the screen, nor the schedule. -/
theorem inv_congr {s t : State} (h : s.Inv) (hmem : t.mem = s.mem) (hcs : t.cs = s.cs) (hdt : t.dt = s.dt)
    (hst : t.st = s.st) (hstack : t.stack = s.stack) (hpc : t.pc = s.pc) (hparams : t.params = s.params) : t.Inv where
  memWf := hmem ▸ h.memWf
  timer := by rw [hcs, hdt]; exact h.timer
  sound := hst.trans h.sound
  stackFits := by rw [hparams, State.sp, hstack]; exact h.stackFits
  blocked := blockedHere_congr h.blocked hcs hparams hpc hmem

/-! ### Instructions -/

theorem effect_mem_wf (i : Instr) {s : State} (h : s.mem.wf = true) : (effect i s).mem.wf = true := by
  by_cases hi : (∀ x, i ≠ .ldB x) ∧ (∀ x, i ≠ .stRegs x)
  · rw [(effect_writers i s).1 hi.1 hi.2]; exact h
  · have hstore : ∀ as bs, (s.storeBytes as bs).mem.wf = true := fun as bs => (storeBytes_spec as bs s).2.1 h
    cases i
    case ldB | stRegs => exact hstore _ _
    all_goals exact absurd (by simp) hi

/-- A completed call found room on the stack, and a return only makes some. -/
theorem stackFits_exec {i : Instr} {s t : State} (h : exec i s = .next t) (hs : StackFits s.params.stackDepth s.sp) :
    StackFits t.params.stackDepth t.sp := by
  obtain ⟨a, rfl⟩ := exec_next h
  rw [setPc_params, (effect_frame i s).1]
  cases i
  case ret => exact stackFits_mono hs (by simp [effect, State.sp])
  case call nnn =>
    rcases execCall_cases nnn s with ⟨-, e⟩ | ⟨hf, -⟩
    · rw [exec, e] at h; cases h
    · simpa [effect, State.sp] using stackFits_push hs hf
  all_goals
    rw [State.sp, setPc_stack, (effect_writers _ s).2.2.1 (by simp) (by simp)]
    exact hs

/-- An instruction fetched by a ready core keeps the invariant: the two that block leave PC at themselves. -/
theorem inv_exec {i : Instr} {s t : State} (hi : s.Inv) (hcs : s.cs = .ready) (hat : s.instrAtPc = some i)
    (h : exec i s = .next t) : t.Inv := by
  have hdt := dt_of_ready hi hcs
  have hstack := stackFits_exec h hi.stackFits
  by_cases hblock : (∀ x, i ≠ .ldDTVx x) ∧ (∀ x, i ≠ .ldVxK x)
  · obtain ⟨a, rfl⟩ := exec_next h
    obtain ⟨-, -, -, -, hdt', hcs', -⟩ := effect_writers i s
    exact inv_of_ready (effect_mem_wf i hi.memWf) ((hcs' hblock.1 hblock.2).trans hcs) ((hdt' hblock.1).trans hdt)
      ((effect_frame i s).2.2.1.trans hi.sound) hstack
  · cases i
    case ldVxK x =>
      cases h
      exact ⟨hi.memWf, by simp [hdt], hi.sound, hstack, (instrAtPc_congr (s := s) rfl rfl rfl).trans hat⟩
    case ldDTVx x =>
      simp only [exec, execLdDTVx] at h
      split at h
      · next h0 => rw [advance_next h] at hstack ⊢; exact inv_of_ready hi.memWf hcs h0 hi.sound hstack
      · next h0 =>
        cases h
        exact ⟨hi.memWf, by simpa using h0, hi.sound, hstack, x, (instrAtPc_congr (s := s) rfl rfl rfl).trans hat⟩
    all_goals exact absurd (by simp) hblock

theorem instrAtPc_of_fetch {s : State} {w : Word} {i : Instr} (hf : fetchWord s = .ok w) (hd : decodeWord w = .ok i) :
    s.instrAtPc = some i := by simp [State.instrAtPc, hf, hd]

/-! ### Events -/

theorem inv_stepEvent {s t : State} (hi : s.Inv) (h : stepEvent s = .next t) : t.Inv := by
  rcases stepEvent_cases s with ⟨-, e⟩ | ⟨hcs, w, hf, e⟩ | ⟨-, f, -, e⟩ <;> rw [e] at h
  · cases h; exact hi
  · rcases execWord_cases w s with ⟨i, hd, e⟩ | ⟨-, e⟩ <;> rw [e] at h
    · exact inv_exec hi hcs (instrAtPc_of_fetch hf hd) h
    · obtain rfl := advance_next h
      have hdt := dt_of_ready hi hcs
      exact inv_of_ready hi.memWf hcs hdt hi.sound hi.stackFits
  · cases h

theorem countDown_zero : countDown 0 = 0 := rfl

theorem inv_tick {s t : State} (hi : s.Inv) (h : tick s = .next t) : t.Inv := by
  have hst : countDown s.st = 0 := by rw [hi.sound, countDown_zero]
  rcases tick_cases s with ⟨-, hdt, e⟩ | ⟨hdt, e⟩ <;> rw [e] at h
  · obtain rfl := advance_next h
    exact inv_of_ready hi.memWf rfl hdt hst hi.stackFits
  · cases h
    refine ⟨hi.memWf, ⟨hdt, fun hne => hi.timer.2 fun h0 => hne ?_⟩, hst, hi.stackFits, ?_⟩
    · exact (congrArg countDown h0).trans countDown_zero
    · exact blockedHere_congr hi.blocked rfl rfl rfl rfl

theorem inv_press {s t : State} {k : Nibble} (hi : s.Inv) (h : press k s = .next t) : t.Inv := by
  rcases press_cases k s with ⟨wx, hcs, e⟩ | ⟨-, e⟩ <;> rw [e] at h
  · obtain rfl := advance_next h
    have hdt : s.dt = 0 := dt_of_not_timerWait hi (by simp [hcs])
    exact inv_of_ready hi.memWf rfl hdt hi.sound hi.stackFits
  · cases h; exact inv_congr hi rfl rfl rfl rfl rfl rfl rfl

/-- A core that has just been reset meets the invariant, with any parameters and any ROM that fits. -/
theorem inv_loaded {rom : List Byte} (s : State) (h : rom.length ≤ 3584) : (loaded rom s).Inv := by
  have hmem : (Memory.writeFrom [] loadAddr rom).wf = true := writeFrom_wf rom [] loadAddr rfl (by simp [loadAddr]; omega)
  have hstack : StackFits s.params.stackDepth 0 := by cases s.params.stackDepth <;> simp [StackFits]
  exact inv_of_ready hmem rfl rfl rfl hstack

theorem inv_handle {e : Event} {s t : State} (hi : s.Inv) (h : handle e s = .next t) : t.Inv := by
  cases e with
  | step => exact inv_stepEvent hi h
  | tick => exact inv_tick hi h
  | press k => exact inv_press hi h
  | release k => cases h; exact inv_congr hi rfl rfl rfl rfl rfl rfl rfl
  | load rom => obtain ⟨hl, rfl⟩ := load_next h; exact inv_loaded s hl

/-- Settles O60: the step is that of an event, taken in the state or in the state without the event. -/
theorem stepKeepsTheInvariant : Obligations.StepKeepsTheInvariant := by
  intro s t hi h
  rcases step_cases s with ⟨-, e⟩ | ⟨ev, es, -, e⟩ <;> rw [e] at h
  · exact inv_handle hi h
  · have his : (s.setSchedule es).Inv := inv_congr hi rfl rfl rfl rfl rfl rfl rfl
    exact inv_handle his h

/-- Settles O59: reset is `LOAD` of the empty ROM. -/
theorem resetMeetsTheInvariant : Obligations.ResetMeetsTheInvariant := inv_loaded (rom := []) State.reset (by decide)

end Sys2Proof.Machine

/-! ## Timers, key wait and the external events (45_timer_key.md), continued -/

namespace Sys2Proof.Machine

/-- A timer is at 0 after a tick where it was at most 1 before. -/
theorem countDown_eq_zero_iff (b : Byte) : countDown b = 0 ↔ b.toNat ≤ 1 := by
  have hb := b.isLt
  rw [countDown_eq, ← BitVec.toNat_inj]
  simp; omega

/-- Settles O42: a timer that is at most 1 is the one that runs out. -/
theorem tickCountsDownAndEndsTheTimerWait : Obligations.TickCountsDownAndEndsTheTimerWait := by
  intro s
  simp only [← countDown_eq, ← countDown_eq_zero_iff, handle]
  refine ⟨fun h => ?_, fun hcs hdt hadv => ?_, fun hcs hdt hp hpc => ?_⟩
  · refine tick_not_last fun hcs hdt => ?_
    rcases h with h | h
    · exact h hcs
    · exact Nat.not_le.2 h ((countDown_eq_zero_iff _).1 hdt)
  · rw [tick_last hcs hdt, advance_ok (s := s.countTimers.setCs .ready) hadv, ← show countDown s.dt = 0#8 from hdt]
    rfl
  · rw [tick_last hcs hdt]
    exact advance_error hp hpc

/-- Settles O43: the key wait is the only control state that a press ends. -/
theorem pressEndsTheKeyWait : Obligations.PressEndsTheKeyWait := by
  intro s k
  simp only [← byteOfKey_eq, handle]
  refine ⟨fun h => ?_, fun wx hcs hadv => ?_, fun wx hcs hp hpc => ?_⟩
  · exact press_not_waiting k h
  · rw [press_waiting k hcs]
    exact advance_ok (s := ((s.setKey k true).setReg wx _).setCs .ready) hadv
  · rw [press_waiting k hcs]
    exact advance_error hp hpc

/-- Settles O40: the two branches of `Fx15`. -/
theorem delayTimerLoadStartsAWait : Obligations.DelayTimerLoadStartsAWait := by
  intro s x
  refine ⟨fun h => ?_, fun h hadv => ?_⟩
  · simp only [exec, execLdDTVx, if_neg h]; rfl
  · have hw : (s.setDt 0).CanAdvance := hadv
    simp only [exec, execLdDTVx, h, if_true, advance_ok hw]; rfl

/-- Settles O41: `Fx0A` is one write of the control state, and reads no key. -/
theorem keyLoadStartsAWait : Obligations.KeyLoadStartsAWait := by
  intro s x
  rw [exec, execLdVxK, State.setCs]

/-- Settles O39: `Fx07` writes `DT` and advances, and the invariant ties `DT` to the timer wait. -/
theorem delayTimerIsRead : Obligations.DelayTimerIsRead := by
  intro s x h
  exact ⟨advance_setReg h x s.dt, dt_of_ready⟩

/-- The state of a timer wait with `n` ticks left. -/
def waiting (s : State) (n : Nat) : State := { s with dt := BitVec.ofNat 8 n, cs := .timerWait }

theorem toNat_waiting_dt (s : State) {n : Nat} (h : n < 256) : (waiting s n).dt.toNat = n := by
  simp [waiting]; omega

/-- Fewer ticks than the timer holds count it down and leave the rest of the wait. -/
theorem handleAll_ticks {s : State} (hst : s.st = 0) {n k : Nat} (hn : n < 256) (hk : k < n) :
    handleAll (List.replicate k .tick) (waiting s n) = .next (waiting s (n - k)) := by
  induction k with
  | zero => rfl
  | succ k ih =>
    have hdt := toNat_waiting_dt s (n := n - k) (by omega)
    obtain ⟨htick, -, -⟩ := tickCountsDownAndEndsTheTimerWait (waiting s (n - k))
    rw [List.replicate_succ', handleAll_append _ _ _ _ (ih (by omega)), handleAll, htick (.inr (by omega)), hdt]
    simp [handleAll, waiting, hst, Nat.sub_sub]

/-- Settles O45: all ticks but the last count down, and the last ends the wait. -/
theorem timerWaitLastsExactlyVxTicks : Obligations.TimerWaitLastsExactlyVxTicks := by
  intro s t x hst hx hadv h
  have hn := (s.reg x).isLt
  have hpos : 0 < (s.reg x).toNat := Nat.pos_of_ne_zero fun h0 => hx (BitVec.eq_of_toNat_eq h0)
  obtain rfl : waiting s (s.reg x).toNat = t := by
    rw [(delayTimerLoadStartsAWait s x).1 hx] at h
    cases h
    simp [waiting]
  refine ⟨fun k hk => handleAll_ticks hst hn hk, ?_⟩
  obtain ⟨m, hm⟩ : ∃ m, (s.reg x).toNat = m + 1 := ⟨_, (Nat.succ_pred_eq_of_pos hpos).symm⟩
  obtain ⟨-, hlast, -⟩ := tickCountsDownAndEndsTheTimerWait (waiting s 1)
  have hticks := handleAll_ticks hst hn (k := m) (by omega)
  rw [hm, Nat.add_sub_cancel_left] at hticks
  rw [hm, List.replicate_succ', handleAll_append _ _ _ _ hticks, handleAll, hlast rfl (Nat.le_refl 1) hadv]
  simp [handleAll, waiting, hst]

/-- Settles O57: of the events left, only the two that end a wait write more than timers and keys. -/
theorem waitingCoreKeepsItsState : Obligations.WaitingCoreKeepsItsState := by
  intro s t e hcs hload h
  cases e with
  | step =>
    rcases stepEvent_cases s with ⟨-, e⟩ | ⟨hr, -⟩ | ⟨hr, -⟩
    · rw [handle, e] at h; cases h; exact ⟨rfl, rfl, rfl, rfl, .inl rfl⟩
    · exact absurd hr hcs
    · exact absurd hr hcs
  | tick =>
    rcases tick_cases s with ⟨-, -, e⟩ | ⟨-, e⟩ <;> rw [handle, e] at h
    · obtain rfl := advance_next h; exact ⟨rfl, rfl, rfl, rfl, .inl rfl⟩
    · cases h; exact ⟨rfl, rfl, rfl, rfl, .inl rfl⟩
  | press k =>
    rcases press_cases k s with ⟨wx, hwx, e⟩ | ⟨-, e⟩ <;> rw [handle, e] at h
    · obtain rfl := advance_next h
      exact ⟨rfl, rfl, rfl, rfl, .inr ⟨wx, k, hwx, rfl, by simp [byteOfKey_eq]⟩⟩
    · cases h; exact ⟨rfl, rfl, rfl, rfl, .inl rfl⟩
  | release k => cases h; exact ⟨rfl, rfl, rfl, rfl, .inl rfl⟩
  | load rom => exact absurd rfl (hload rom)

end Sys2Proof.Machine

/-! ## The step and its outputs (10_state.md, 60_exceptions.md) -/

namespace Sys2Proof.Machine

theorem step_of_schedule_cons {s : State} {e : Event} {es : List Event} (h : s.schedule = e :: es) :
    step s = handle e (s.setSchedule es) := by
  simp [step, takeTurn, h]

/-- Settles O10: the two cases of the schedule. -/
theorem stepTakesOldestScheduledEvent : Obligations.StepTakesOldestScheduledEvent := by
  intro s
  exact ⟨step_of_schedule_nil, fun e es => step_of_schedule_cons⟩

theorem execWord_known {w : Word} {i : Instr} (h : decodeWord w = .ok i) (s : State) : execWord w s = exec i s := by
  simp [execWord, h]

/-- A `STEP` that fetches the word of an instruction runs it (10_state.md R60). -/
theorem handle_step_known {s : State} {w : Word} {i : Instr} (hcs : s.cs = .ready) (hf : fetchWord s = .ok w)
    (hd : decodeWord w = .ok i) : handle .step s = exec i s :=
  (stepEvent_ready hcs hf).trans (execWord_known hd s)

/-- Settles O6: dropping the event from the schedule changes neither the control state nor what is fetched. -/
theorem stepRunsDecodedInstruction : Obligations.StepRunsDecodedInstruction := by
  refine ⟨fun s i hcs hfetch hd => ?_, fun s hcs hp hpc => stepEvent_fetch_error hcs (fetchWord_error hp hpc)⟩
  have hf := fetchWord_ok hfetch
  have hd := decode_pair_ok hd
  refine ⟨fun hs => ?_, fun es hs => ?_⟩
  · rw [step_of_schedule_nil hs, handle_step_known hcs hf hd]
  · have hf' := (fetchWord_congr (s := s) (t := s.setSchedule es) rfl rfl rfl).trans hf
    rw [step_of_schedule_cons hs, handle_step_known (s := s.setSchedule es) hcs hf' hd]
    rfl

theorem handle_step_waiting {s : State} (h : s.cs ≠ .ready) : handle .step s = .next s := by
  rcases stepEvent_cases s with ⟨-, e⟩ | ⟨hr, -⟩ | ⟨hr, -⟩
  · exact e
  · exact absurd hr h
  · exact absurd hr h

theorem traceOf_step_waiting {s : State} (h : s.cs ≠ .ready) : traceOf .step s = none := by
  cases hcs : s.cs with
  | ready => exact absurd hcs h
  | timerWait | keyWait wx => simp [traceOf, fetched, hcs]

theorem traceOf_of_ne_step {e : Event} (h : e ≠ .step) (s : State) : traceOf e s = none := by
  cases e with
  | step => exact absurd rfl h
  | tick | press | release | load => rfl

/-- A completed event that traces no word has nothing to report. -/
theorem reply_untraced {e : Event} {s t : State} (ht : traceOf e s = none) (hn : handle e s = .next t) :
    reply e s = { trace := none, report := .none } := by
  simp [reply, ht, reportOf_next hn, unknownReport]

/-- Settles O9: a waiting core fetches no word, so it traces and reports none. -/
theorem stepIsNotAcceptedWhileWaiting : Obligations.StepIsNotAcceptedWhileWaiting := by
  intro s hcs
  have hn := handle_step_waiting hcs
  exact ⟨hn, reply_untraced (traceOf_step_waiting hcs) hn⟩

/-! ### The error output -/

theorem reportOf_fault {e : Event} {s : State} {f : Fault} (h : handle e s = .fault f) : reportOf e s = f.report := by
  simp [reportOf, h]

theorem reportOf_step_known {s t : State} {w : Word} {i : Instr} (ht : traceOf .step s = some w)
    (hd : decodeWord w = .ok i) (hn : handle .step s = .next t) : (reply .step s).report = .none := by
  simp [reply, reportOf_next hn, unknownReport, ht, hd]

/-- Settles O52: a fault is reported as itself, and a completed event by the word that it traced. -/
theorem errorOutputCarriesTheCode : Obligations.ErrorOutputCarriesTheCode := by
  refine ⟨fun e s h => ?_, fun e s v h => ?_, fun e s h => ?_, fun s t w hcs hf hn => ?_, fun s w f hcs hf _ => ?_,
    fun e s t he hn => ?_⟩
  · rw [reply, reportOf_fault h]; rfl
  · rw [reply, reportOf_fault h]; exact ⟨rfl, rfl⟩
  · rw [reply, reportOf_fault h]; rfl
  · have ht := traceOf_step hcs hf
    refine ⟨ht, ?_⟩
    cases hd : decodeWord w with
    | ok i => simp [reportOf_step_known ht hd hn, Report.code]
    | error e =>
      obtain rfl := decodeWord_error hd
      simp [reply_step_unknown hcs hf hd hn, Report.code]
  · exact traceOf_step hcs hf
  · exact reply_untraced (traceOf_of_ne_step he s) hn

/-! ### Stack errors persist -/

/-- The two fatal errors that the call stack causes (60_exceptions.md R201, R204). -/
def StackFault (f : Fault) : Prop := f = .stackUnderflow ∨ f = .stackOverflow

theorem not_stackFault_outOfRange (v : Nat) : ¬ StackFault (.outOfRange v) := by simp [StackFault]

theorem not_stackFault_of_advance {s : State} {f : Fault} (h : advance s = .fault f) : ¬ StackFault f := by
  obtain ⟨v, rfl, -⟩ := goto_fault h
  exact not_stackFault_outOfRange v

/-- A stack error of an instruction depends on the stack and the parameters alone. -/
theorem exec_stackFault_congr {i : Instr} {s t : State} {f : Fault} (hf : StackFault f) (h : exec i s = .fault f)
    (hstack : t.stack = s.stack) (hparams : t.params = s.params) : exec i t = .fault f := by
  rcases fatalErrorsComeOnlyFromTheirCauses i s f h with ⟨rfl, rfl, he⟩ | ⟨rfl, ⟨nnn, rfl⟩, hfull⟩ | ⟨v, rfl, -⟩
  · rcases execRet_cases t with ⟨-, e⟩ | ⟨l, a, hl, -⟩
    · exact e
    · rw [hstack, he] at hl; simp at hl
  · rcases execCall_cases nnn t with ⟨-, e⟩ | ⟨hn, -⟩
    · exact e
    · have hfull' : stackFull t.params.stackDepth t.sp = true := by
        rw [State.sp, hstack, hparams]; exact (stackFull_iff ..).2 hfull
      rw [hn] at hfull'; cases hfull'
  · exact absurd hf (not_stackFault_outOfRange v)

/-- A `STEP` with a stack error fetched the instruction that has it. -/
theorem stepEvent_stackFault {s : State} {f : Fault} (hf : StackFault f) (h : stepEvent s = .fault f) :
    s.cs = .ready ∧ ∃ w i, fetchWord s = .ok w ∧ decodeWord w = .ok i ∧ exec i s = .fault f := by
  rcases stepEvent_cases s with ⟨-, e⟩ | ⟨hcs, w, hw, e⟩ | ⟨-, f', hw, e⟩ <;> rw [e] at h
  · cases h
  · rcases execWord_cases w s with ⟨i, hd, e⟩ | ⟨-, e⟩ <;> rw [e] at h
    · exact ⟨hcs, w, i, hw, hd, h⟩
    · exact absurd hf (not_stackFault_of_advance h)
  · cases h
    rcases fetchWord_cases s with ⟨-, e⟩ | ⟨-, -, e⟩ <;> rw [e] at hw <;> cases hw
    exact absurd hf (not_stackFault_outOfRange _)

/-- On a ready core a timer or key event changes timers and keys alone. -/
theorem ready_event_frame {e : Event} {s t : State} (hcs : s.cs = .ready)
    (he : e = .tick ∨ ∃ k, e = .press k ∨ e = .release k) (h : handle e s = .next t) :
    t.cs = s.cs ∧ t.pc = s.pc ∧ t.mem = s.mem ∧ t.stack = s.stack ∧ t.params = s.params := by
  rcases he with rfl | ⟨k, rfl | rfl⟩
  · rw [handle, tick_not_last (by simp [hcs])] at h
    cases h; exact ⟨rfl, rfl, rfl, rfl, rfl⟩
  · rw [handle, press_not_waiting k (by simp [hcs])] at h
    cases h; exact ⟨rfl, rfl, rfl, rfl, rfl⟩
  · cases h; exact ⟨rfl, rfl, rfl, rfl, rfl⟩

/-- Settles O51: the event leaves the instruction at PC and the stack that caused the error. -/
theorem stackErrorsPersist : Obligations.StackErrorsPersist := by
  intro s t e f hf h he hn
  obtain ⟨hcs, w, i, hw, hd, hx⟩ := stepEvent_stackFault hf h
  obtain ⟨hcs', hpc, hmem, hstack, hparams⟩ := ready_event_frame hcs he hn
  have hw' := (fetchWord_congr hparams hpc hmem).trans hw
  rw [handle_step_known (hcs'.trans hcs) hw' hd]
  exact exec_stackFault_congr hf hx hstack hparams

/-! ### The advance past the end -/

/-- The normal advance from a state that has kept PC and the parameters. -/
theorem advance_error_of_eq {s u : State} (hp : s.params.addrPolicy = .fault) (hpc : 4094 ≤ s.pc.toNat)
    (hparams : u.params = s.params) (hkept : u.pc = s.pc) : advance u = .fault (.outOfRange (s.pc.toNat + 2)) := by
  rw [← hkept] at hpc ⊢
  exact advance_error (hparams ▸ hp) hpc

theorem advance_storeBytes_error {s : State} (hp : s.params.addrPolicy = .fault) (hpc : 4094 ≤ s.pc.toNat)
    (as : List Addr) (bs : List Byte) : advance (s.storeBytes as bs) = .fault (.outOfRange (s.pc.toNat + 2)) := by
  rw [(storeBytes_spec as bs s).1]
  exact advance_error_of_eq hp hpc rfl rfl

theorem advance_loadRegs_error {s : State} (hp : s.params.addrPolicy = .fault) (hpc : 4094 ≤ s.pc.toNat)
    (j : Nat) (bs : List Byte) : advance (s.loadRegs j bs) = .fault (.outOfRange (s.pc.toNat + 2)) := by
  rw [loadRegs_frame]
  exact advance_error_of_eq hp hpc rfl rfl

/-- A draw whose visible rows can be read is the advance from its effect. -/
theorem execDrw_ok {x y : RegIdx} {n : Nibble} {s : State} (h : s.OperandsOk (visibleRows ((s.reg y).toNat % 32) n.toNat)) :
    execDrw x y n s = advance (effect (.drw x y n) s) := withOperands_ok _ h

/-- Settles O53: each of the instructions ends in the normal advance, from a state with the same PC and parameters. -/
theorem advancePastTheEndIsOutOfRange : Obligations.AdvancePastTheEndIsOutOfRange := by
  intro s x y n kk nnn hp hpc f
  have adv : ∀ u : State, u.params = s.params → u.pc = s.pc → advance u = f := fun u => advance_error_of_eq hp hpc
  have hops : ∀ {m}, s.i.toNat + m ≤ 4096 → s.OperandsOk m := .inr
  refine ⟨adv _ rfl rfl, adv _ rfl rfl, adv _ rfl rfl, adv _ rfl rfl, adv _ rfl rfl, adv _ rfl rfl, adv _ rfl rfl,
    adv _ rfl rfl, adv _ rfl rfl, adv _ rfl rfl, adv _ rfl rfl, adv _ rfl rfl, adv _ rfl rfl, adv _ rfl rfl,
    adv _ rfl rfl, adv _ rfl rfl, adv _ rfl rfl, fun hx => ?ldDTVx, fun hi => ?addI, fun hi => ?ldB,
    fun hi => ⟨?stRegs, ?ldRegs⟩, fun hi => ?drw, adv _ rfl rfl, fun w hcs hfetch hd => ?unknown⟩
  case ldDTVx => simp only [exec, execLdDTVx, if_pos hx]; exact adv _ rfl rfl
  case addI => rw [exec, execAddI, withAddr_ok _ (.inr hi)]; exact adv _ rfl rfl
  case ldB => rw [exec, execLdB, withOperands_ok _ (hops (by omega))]; exact advance_storeBytes_error hp hpc _ _
  case stRegs => rw [exec, execStRegs, withOperands_ok _ (hops (by omega))]; exact advance_storeBytes_error hp hpc _ _
  case ldRegs => rw [exec, execLdRegs, withOperands_ok _ (hops (by omega))]; exact advance_loadRegs_error hp hpc _ _
  case drw => rw [exec, execDrw_ok (hops hi)]; exact adv _ rfl rfl
  case unknown =>
    obtain ⟨hf, hw⟩ := fetchWord_of_decode_unknown hfetch hd
    have hn : handle .step s = f := (handle_step_unknown hcs hf hw).trans (adv s rfl rfl)
    have ht : traceOf .step s = some w := traceOf_step hcs hf
    refine ⟨hn, ?_⟩
    rw [reply, ht, reportOf_fault hn, Fault.report]

end Sys2Proof.Machine

/-! ## Reset and load (70_reset_and_hazards.md) -/

namespace Sys2Proof.Machine

@[simp] theorem readByte_reset (a : Addr) : State.reset.readByte a = resetByte a.toNat := rfl

/-- Settles O46: an address that memory does not list reads as the font or as 0. -/
theorem resetLeavesTheSpecsValues : Obligations.ResetLeavesTheSpecsValues := by
  refine ⟨fun x => ?_, rfl, rfl, rfl, rfl, rfl, fun k => ?_, pixelAt_clearScreen, rfl, fun a h => ?_, fun a h => ?_⟩
  · simp [State.reg, State.reset]
  · simp [State.keyDown, State.reset]
  · rw [readByte_reset, resetByte, if_pos h]
    rw [List.getD_eq_getElem?_getD, List.getElem?_eq_getElem h, Option.getD_some]
  · rw [readByte_reset, resetByte, if_neg (Nat.not_lt.2 h)]

theorem load_ok {rom : List Byte} (s : State) (h : rom.length ≤ 3584) : load rom s = .next (loaded rom s) := if_pos h

theorem load_refused {rom : List Byte} (s : State) (h : 3584 < rom.length) : load rom s = .refused .romTooLong :=
  if_neg (Nat.not_le.2 h)

/-- Settles O47: the ROM is stored from 512 up in the memory of reset. -/
theorem loadResetsAndPlacesTheRom : Obligations.LoadResetsAndPlacesTheRom := by
  intro s rom
  refine ⟨fun h => ⟨loaded rom s, load_ok s h, rfl, fun a j hj ha => ?_, fun a ha => ?_⟩, load_refused s⟩
  · rw [State.readByte, ha]
    exact read_writeFrom rom [] 512 j hj
  · exact read_writeFrom_other rom [] 512 a.toNat ha

/-- What `LOAD` leaves depends on the model's own fields alone. -/
theorem load_congr {s s' : State} (rom : List Byte) (hp : s.params = s'.params) (hd : s.draws = s'.draws)
    (hs : s.schedule = s'.schedule) : load rom s = load rom s' := by
  simp only [load, loaded, hp, hd, hs]

/-- Settles O48: after `LOAD` the two machines are in the same state. -/
theorem loadForgetsHistory : Obligations.LoadForgetsHistory := by
  intro s s' rom es hp hd hs
  simp only [handleAll, handle, load_congr rom hp hd hs]

end Sys2Proof.Machine

/-! ## Control transfer, continued -/

namespace Sys2Proof.Machine

/-- Settles O14: a full stack is a depth that the stack has reached. -/
theorem callPushesItsOwnAddress : Obligations.CallPushesItsOwnAddress := by
  intro s nnn
  rcases execCall_cases nnn s with ⟨hf, e⟩ | ⟨hf, e⟩
  · obtain ⟨n, hd, hn⟩ := (stackFull_iff ..).1 hf
    exact ⟨fun h => absurd hn (h n hd), fun _ _ _ => e⟩
  · refine ⟨fun _ => e, fun n hd hn => ?_⟩
    rw [(stackFull_iff ..).2 ⟨n, hd, hn⟩] at hf
    cases hf

theorem execRet_of_stack {s : State} {l : List Addr} {a : Addr} (h : s.stack = l ++ [a]) :
    execRet s = if s.params.retAdvance then goto (s.setStack l) (a.toNat + 2) else .next ((s.setStack l).setPc a) := by
  rcases execRet_cases s with ⟨hn, -⟩ | ⟨l', a', h', e⟩
  · simp [hn] at h
  · obtain ⟨rfl, rfl⟩ : l' = l ∧ a' = a := by simpa [h'] using h
    exact e

/-- Settles O15: the last entry is the one popped, and the return is `goto` of it or of the address after it. -/
theorem returnPopsTheStack : Obligations.ReturnPopsTheStack := by
  intro s l t hs
  simp only [exec, execRet_of_stack hs]
  refine ⟨fun hr hok => ?_, fun hr => ?_, fun hr hp ht => ?_⟩
  · rw [if_pos hr, goto_ok (s := s.setStack l) hok, ofNat_add_toNat]
    rfl
  · rw [hr]
    rfl
  · rw [if_pos hr]
    exact goto_error (s := s.setStack l) hp (by omega)

/-- Settles O17: the return finds the address that the call pushed. -/
theorem returnGoesOnAfterTheCall : Obligations.ReturnGoesOnAfterTheCall := by
  intro s t u nnn h hstack hparams hr hadv
  obtain ⟨a, rfl⟩ := exec_next h
  obtain ⟨hret, -, -⟩ := returnPopsTheStack u s.stack s.pc hstack
  exact hret (hparams ▸ hr) (hparams ▸ hadv)

end Sys2Proof.Machine

namespace Sys2Proof

/-- Settles O1: the decoder reads each word. -/
theorem writtenWordsDecode : Obligations.WrittenWordsDecode :=
  ⟨rfl, rfl, rfl, rfl, rfl, rfl, rfl, rfl, rfl, rfl, rfl, rfl⟩

end Sys2Proof

/-! ## Skips and registers, continued -/

namespace Sys2Proof.Machine

/-- Settles O20: the key is the one that `keyOf` selects, and the two skips are on its being down and on its being up. -/
theorem skipsOnKeys : Obligations.SkipsOnKeys := by
  intro s x k hk
  simp only [exec, execSkp, execSknp, keyOf_eq hk]
  have up : ∀ b, s.keyDown k = b → (!s.keyDown k) = !b := fun b h => congrArg _ h
  refine ⟨fun h hs => ?_, fun h ha => ?_, fun h hs => ?_, fun h ha => ?_, fun hp hpc => ⟨fun h => ?_, fun h => ?_⟩,
    fun hp hpc => ⟨fun h => ?_, fun h => ?_⟩⟩
  · rw [skipIf_of_true h, advanceSkip_ok hs]; rfl
  · rw [skipIf_of_false h, advance_ok ha]; rfl
  · rw [skipIf_of_true (up _ h), advanceSkip_ok hs]; rfl
  · rw [skipIf_of_false (up _ h), advance_ok ha]; rfl
  · rw [skipIf_of_true h, advanceSkip_error hp hpc]
  · rw [skipIf_of_true (up _ h), advanceSkip_error hp hpc]
  · rw [skipIf_of_false h, advance_error hp hpc]
  · rw [skipIf_of_false (up _ h), advance_error hp hpc]

/-- Settles O24: the three bytes are the bitwise operations on the registers. -/
theorem logicActsBitwiseAndLeavesVF : Obligations.LogicActsBitwiseAndLeavesVF := by
  intro s x y h
  exact ⟨s.reg x ||| s.reg y, s.reg x &&& s.reg y, s.reg x ^^^ s.reg y, fun b => BitVec.getLsbD_or,
    fun b => BitVec.getLsbD_and, fun b => BitVec.getLsbD_xor, advance_setReg h _ _, advance_setReg h _ _,
    advance_setReg h _ _⟩

/-- A flag and a result written, followed by the normal advance. -/
theorem advance_flagThen {s : State} (h : s.CanAdvance) (flag : Byte) (x : RegIdx) (result : State → Byte) :
    advance (flagThen s flag x result) =
      .next { s with v := (s.v.set 15 flag).set x.toNat (result (s.setReg VF flag)) x.isLt, pc := s.pc + 2#12 } := by
  have hw : (flagThen s flag x result).CanAdvance := h
  rw [advance_ok hw]
  rfl

/-- Settles O25: the sum is taken from the registers before the flag write. -/
theorem addRegistersSetsCarry : Obligations.AddRegistersSetsCarry := by
  intro s x y h sum
  rw [exec, execAddReg, advance_flagThen h, carryFlag_eq, add_eq_ofNat]

/-- Settles O26: both operands are read after the flag write. -/
theorem subtractSetsGreaterFlag : Obligations.SubtractSetsGreaterFlag := by
  intro s x y h v1 v2
  refine ⟨?_, ?_⟩
  · rw [exec, execSubReg, advance_flagThen h, greaterFlag_eq, sub_eq_ofNat]; rfl
  · rw [exec, execSubnReg, advance_flagThen h, greaterFlag_eq, sub_eq_ofNat]; rfl

/-- Settles O27: the register is read after the flag write, the flag before it. -/
theorem shiftsMoveOneBitThroughVF : Obligations.ShiftsMoveOneBitThroughVF := by
  intro s x y h v1 v2
  refine ⟨?_, ?_⟩
  · rw [exec, execShr, advance_flagThen h, shiftOutLow_eq, shiftRight_eq_ofNat]; rfl
  · rw [exec, execShl, advance_flagThen h, shiftOutHigh_eq, shiftLeft_eq_ofNat]; rfl

/-- Settles O28: a bit of the mask that is 0 stays 0, whatever the byte drawn. -/
theorem randomByteIsMasked : Obligations.RandomByteIsMasked := by
  intro s x kk h
  refine ⟨Config.randomByte s.draws &&& kk, fun b hb => by simp [hb], rfl, ?_⟩
  exact advance_ok (s := (s.setReg x _).setDraws _) h

/-! ## Address register and memory, continued -/

/-- Settles O30: `Fx1E` goes through `A12` of the sum, and then advances. -/
theorem addIndexReducesToTwelveBits : Obligations.AddIndexReducesToTwelveBits := by
  intro s x
  refine ⟨fun hok h => ?_, fun hp hi => withAddr_error _ hp hi⟩
  rw [exec, execAddI, withAddr_ok _ hok, ofNat_mod_4096]
  exact advance_setI h _

/-- Settles O31: `5 * 255` is below 4096, so the address is not cut. -/
theorem glyphAddressIsFiveTimesTheDigit : Obligations.GlyphAddressIsFiveTimesTheDigit := by
  intro s x h
  exact ⟨glyphAddr (s.reg x), toNat_glyphAddr _, advance_setI h _⟩

/-- Settles O33: `Fx55` is the store of `V[0..x]` at the operand addresses. -/
theorem registersAreStored : Obligations.RegistersAreStored := by
  intro s x
  have hx := x.isLt
  refine ⟨fun hok h => ?_, fun hp hi => withOperands_error _ hp (by omega)⟩
  have hops : s.OperandsOk (x.toNat + 1) := hok.imp_right (by omega)
  obtain ⟨t, hnext, hframe, hread, hother⟩ :=
    withOperands_storeBytes_spec (length_regsUpTo s x) (by omega) hops h
  refine ⟨t, hnext, hframe, fun y hy => ?_, fun a ha => hother a fun k hk => ha k (by omega)⟩
  have hlt : y.toNat < (s.regsUpTo x).length := by rw [length_regsUpTo]; omega
  rw [hread y.toNat hlt, getElem_regsUpTo]

/-- The byte that `Fx65` loads into a register up to `x` is that at its operand address; the others keep their value. -/
theorem reg_loadRegs_operands (s : State) (x y : RegIdx) :
    (effect (.ldRegs x) s).reg y = if y.toNat ≤ x.toNat then s.readByte (s.operandAddr y.toNat) else s.reg y := by
  have hx := x.isLt
  rw [effect, reg_loadRegs _ _ _ _ (by simp; omega)]
  by_cases hy : y.toNat ≤ x.toNat
  · have hlt : y.toNat < x.toNat + 1 := by omega
    simp [hy, hlt]
  · have hlt : ¬ y.toNat < x.toNat + 1 := by omega
    simp [hy, hlt]

/-- A load of `V[0..x]` that completes is the advance from its effect. -/
theorem execLdRegs_ok {s : State} {x : RegIdx} (hops : s.OperandsOk (x.toNat + 1)) (h : s.CanAdvance) :
    execLdRegs x s = .next ((effect (.ldRegs x) s).setPc (s.pc + 2#12)) := by
  rw [execLdRegs, withOperands_ok _ hops, effect, loadRegs_frame]
  exact advance_ok (s := { s with v := _ }) h

/-- Settles O34: `Fx65` reads each register from its own operand address. -/
theorem registersAreLoaded : Obligations.RegistersAreLoaded := by
  intro s x
  refine ⟨fun hok h => ?_, fun hp hi => withOperands_error _ hp (by omega)⟩
  have hops : s.OperandsOk (x.toNat + 1) := hok.imp_right (by omega)
  refine ⟨_, execLdRegs_ok hops h, ?_, fun y hy => ?_, fun y hy => ?_⟩
  · rw [effect, loadRegs_frame]; rfl
  · rw [reg_setPc, reg_loadRegs_operands, if_pos hy]
  · rw [reg_setPc, reg_loadRegs_operands, if_neg (Nat.not_le.2 hy)]

/-- What completes through the operand addresses computed them without an error. -/
theorem operandsOk_of_next {s t : State} {n : Nat} {k : List Addr → Result} (h : withOperands s n k = .next t) :
    s.OperandsOk n := by
  rcases withOperands_cases s n k with ⟨hok, -⟩ | ⟨-, -, e⟩
  · exact hok
  · rw [e] at h; cases h

/-- Settles O35: the load reads back the bytes that the store wrote at the same operand addresses. -/
theorem storeThenLoadRestoresRegisters : Obligations.StoreThenLoadRestoresRegisters := by
  intro s t u x h hmem hi hparams hadv
  have hx := x.isLt
  have hops : s.OperandsOk (x.toNat + 1) := operandsOk_of_next h
  obtain ⟨a, rfl⟩ := exec_next h
  have hframe : effect (.stRegs x) s = s.setMem (effect (.stRegs x) s).mem := (storeBytes_spec _ _ s).1
  have hi : u.i = s.i := hi.trans (by rw [hframe]; rfl)
  have hparams : u.params = s.params := hparams.trans (by rw [hframe]; rfl)
  have hops' : u.OperandsOk (x.toNat + 1) := by rw [State.OperandsOk, hi, hparams]; exact hops
  refine ⟨_, execLdRegs_ok hops' hadv, fun y hy => ?_, fun y hy => ?_⟩
  · have hlt : y.toNat < (s.regsUpTo x).length := by rw [length_regsUpTo]; omega
    have haddr : u.operandAddr y.toNat = s.operandAddr y.toNat := by rw [State.operandAddr, hi]; rfl
    rw [reg_setPc, reg_loadRegs_operands, if_pos hy, haddr, readByte_congr hmem, readByte_setPc, effect,
      readByte_storeBytes_operandAddr s (by omega) (by omega) hlt, getElem_regsUpTo]
  · rw [reg_setPc, reg_loadRegs_operands, if_neg (Nat.not_le.2 hy)]

end Sys2Proof.Machine

/-! ## Drawing (44_display.md R181 to R185) -/

namespace Sys2Proof.Machine

/-- The sprite bit that `Dxyn` puts on a pixel (R181, R182), in the state it is executed in. -/
def State.drawBit (s : State) (x y : RegIdx) (n : Nibble) : Fin 32 → Fin 64 → Bool :=
  spriteAt s.params.spriteMsbLeft ((s.reg x).toNat % 64) ((s.reg y).toNat % 32) (s.spriteBytes n.toNat)

/-- The bits of the visible rows, which are those read, are the bits of all rows (R183). -/
theorem spriteAt_read_rows (s : State) (x y : RegIdx) (n : Nibble) (r : Fin 32) (c : Fin 64) :
    spriteAt s.params.spriteMsbLeft ((s.reg x).toNat % 64) ((s.reg y).toNat % 32)
      (((List.range (visibleRows ((s.reg y).toNat % 32) n.toNat)).map s.operandAddr).map s.readByte) r c =
    s.drawBit x y n r c := by
  rw [List.map_map]
  exact spriteAt_visible ..

theorem drawn_pixel (s : State) (x y : RegIdx) (n : Nibble) (r : Fin 32) (c : Fin 64) :
    pixelAt (drawn x y n s).fb r c = (s.pixel r c ^^ s.drawBit x y n r c) := by
  have hx : (s.reg x).toNat % 64 < 64 := Nat.mod_lt _ (by decide)
  rw [drawn, (drawRows_spec _ hx _ _ _).1, spriteAt_read_rows]
  rfl

theorem drawn_hit (s : State) (x y : RegIdx) (n : Nibble) :
    (drawn x y n s).hit = true ↔ ∃ r c, s.drawBit x y n r c = true ∧ s.pixel r c = true := by
  have hx : (s.reg x).toNat % 64 < 64 := Nat.mod_lt _ (by decide)
  rw [drawn, (drawRows_spec _ hx _ _ _).2]
  simp only [spriteAt_read_rows, Bool.false_eq_true, false_or]
  rfl

/-- A hit is a pixel turned off (R184). -/
theorem drawn_hit_iff_turned_off (s : State) (x y : RegIdx) (n : Nibble) :
    (drawn x y n s).hit = true ↔ ∃ r c, s.pixel r c = true ∧ pixelAt (drawn x y n s).fb r c = false := by
  simp only [drawn_hit, drawn_pixel]
  refine exists_congr fun r => exists_congr fun c => ?_
  cases s.pixel r c <;> cases s.drawBit x y n r c <;> decide

/-- A draw that completes is the advance from its effect. -/
theorem execDrw_next {x y : RegIdx} {n : Nibble} {s : State}
    (hops : s.OperandsOk (visibleRows ((s.reg y).toNat % 32) n.toNat)) (h : s.CanAdvance) :
    execDrw x y n s = .next ((effect (.drw x y n) s).setPc (s.pc + 2#12)) :=
  (execDrw_ok hops).trans (advance_ok (s := effect (.drw x y n) s) h)

/-- Settles O37: the rows on the screen draw what all rows would, and a hit is a pixel turned off. -/
theorem drawXorsEachPixel : Obligations.DrawXorsEachPixel := by
  intro s x y n x0 y0 bit
  refine ⟨fun hops h => ?_, fun hp hi => withOperands_error _ hp hi⟩
  have hoff := drawn_hit_iff_turned_off s x y n
  refine ⟨_, collisionFlag (drawn x y n s).hit, execDrw_next hops h, rfl, drawn_pixel s x y n, fun hit => ?_,
    fun hit => ?_⟩
  · rw [hoff.2 hit]; rfl
  · rw [Bool.eq_false_iff.2 (mt hoff.1 hit)]; rfl

/-- The sprite depends on memory, `I`, the parameters and the position registers alone. -/
theorem drawBit_congr {s u : State} {x y : RegIdx} (n : Nibble) (hmem : u.mem = s.mem) (hi : u.i = s.i)
    (hparams : u.params = s.params) (hx : u.reg x = s.reg x) (hy : u.reg y = s.reg y) :
    u.drawBit x y n = s.drawBit x y n := by
  have hbytes : u.spriteBytes n.toNat = s.spriteBytes n.toNat := by
    simp only [State.spriteBytes, State.readByte, State.operandAddr, hmem, hi]
  rw [State.drawBit, State.drawBit, hbytes, hparams, hx, hy]

theorem collisionFlag_eq_one_iff (hit : Bool) : collisionFlag hit = 1 ↔ hit = true := by
  cases hit <;> decide

theorem collisionFlag_cases (hit : Bool) : collisionFlag hit = 0 ∨ collisionFlag hit = 1 := by
  cases hit <;> decide

/-- Settles O38: the second draw XORs the same bits onto the pixels that the first left. -/
theorem drawTwiceRestoresTheScreen : Obligations.DrawTwiceRestoresTheScreen := by
  intro s t u x y n h hfb hmem hi hparams hx hy hadv
  have hops : u.OperandsOk (visibleRows ((u.reg y).toNat % 32) n.toNat) := by
    rw [State.OperandsOk, hy, hi, hparams]; exact operandsOk_of_next h
  obtain ⟨a, rfl⟩ := exec_next h
  have hbit := drawBit_congr n hmem hi hparams hx hy
  have hpixel : ∀ r c, u.pixel r c = (s.pixel r c ^^ s.drawBit x y n r c) := fun r c => by
    rw [State.pixel, hfb]; exact drawn_pixel s x y n r c
  have hflag : (effect (.drw x y n) u).reg VF = collisionFlag (drawn x y n u).hit := reg_setReg_same ..
  refine ⟨_, execDrw_next hops hadv, fb_ext fun r c => ?_, ?_, ?_⟩
  · calc pixelAt (drawn x y n u).fb r c
        = ((s.pixel r c ^^ s.drawBit x y n r c) ^^ s.drawBit x y n r c) := by rw [drawn_pixel, hbit, hpixel]
      _ = s.pixel r c := by rw [Bool.xor_assoc, Bool.xor_self, Bool.xor_false]
  · rw [reg_setPc, hflag]; exact collisionFlag_cases _
  · rw [reg_setPc, hflag, collisionFlag_eq_one_iff, drawn_hit, hbit]
    refine exists_congr fun r => exists_congr fun c => ?_
    have ht : ((effect (.drw x y n) s).setPc a).pixel r c = (s.pixel r c ^^ s.drawBit x y n r c) :=
      drawn_pixel s x y n r c
    rw [hpixel, ht]
    cases s.pixel r c <;> cases s.drawBit x y n r c <;> decide

end Sys2Proof.Machine

/-! ## `FAULT` refines `WRAP` (00_scope.md R27) -/

namespace Sys2Proof.Machine

/-- The same state under `WRAP`. -/
def State.wrapped (s : State) : State := s.withPolicy .wrap

/-- `r'` answers what `r` answers when that is a next state, but for the policy. -/
def Refines (r r' : Result) : Prop := ∀ t, r = .next t → r' = .next t.wrapped

theorem refines_next (s : State) : Refines (.next s) (.next s.wrapped) := fun _ h => by cases h; rfl

theorem refines_raise (f : Fault) (r : Result) : Refines (raise f) r := fun _ h => by cases h

theorem refines_ite {c : Prop} [Decidable c] {r₁ r₂ r₁' r₂' : Result} (h₁ : Refines r₁ r₁') (h₂ : Refines r₂ r₂') :
    Refines (if c then r₁ else r₂) (if c then r₁' else r₂') := by
  split
  · exact h₁
  · exact h₂

theorem refines_withAddr {s : State} {v : Nat} {k k' : Addr → Result} (h : ∀ a, Refines (k a) (k' a)) :
    Refines (withAddr s v k) (withAddr s.wrapped v k') := fun t ht => by
  rw [withAddr_ok k' (.inl rfl)]
  exact h _ t (withAddr_next ht)

theorem refines_withOperands {s : State} {n : Nat} {k k' : List Addr → Result} (h : ∀ as, Refines (k as) (k' as)) :
    Refines (withOperands s n k) (withOperands s.wrapped n k') := fun t ht => by
  rw [withOperands_ok k' (.inl rfl)]
  exact h _ t (withOperands_next (s := s) ht)

theorem refines_goto (s : State) (v : Nat) : Refines (goto s v) (goto s.wrapped v) :=
  refines_withAddr fun a => refines_next (s.setPc a)

theorem refines_advance (s : State) : Refines (advance s) (advance s.wrapped) := refines_goto s _

theorem refines_skipIf (c : Bool) (s : State) : Refines (skipIf c s) (skipIf c s.wrapped) :=
  refines_ite (refines_goto s _) (refines_advance s)

theorem wrapped_storeBytes (s : State) (as : List Addr) (bs : List Byte) :
    s.wrapped.storeBytes as bs = (s.storeBytes as bs).wrapped := by
  induction as generalizing s bs with
  | nil => rfl
  | cons a as ih =>
    cases bs with
    | nil => rfl
    | cons b bs => exact ih (s.writeByte a b) bs

theorem refines_storeBytes (s : State) (n : Nat) (bs : List Byte) :
    Refines (withOperands s n fun as => advance (s.storeBytes as bs))
      (withOperands s.wrapped n fun as => advance (s.wrapped.storeBytes as bs)) :=
  refines_withOperands fun as => wrapped_storeBytes s as bs ▸ refines_advance (s.storeBytes as bs)

theorem wrapped_loadRegs (s : State) (j : Nat) (bs : List Byte) :
    s.wrapped.loadRegs j bs = (s.loadRegs j bs).wrapped := by
  induction bs generalizing s j with
  | nil => rfl
  | cons b bs ih => exact ih (s.setReg _ b) (j + 1)

theorem refines_exec (i : Instr) (s : State) : Refines (exec i s) (exec i s.wrapped) := by
  cases i
  case ret =>
    rcases execRet_cases s with ⟨-, e⟩ | ⟨l, a, hs, e⟩ <;> rw [exec, e]
    · exact refines_raise _ _
    · rw [exec, execRet_of_stack (s := s.wrapped) hs]
      exact refines_ite (refines_goto (s.setStack l) _) (refines_next ((s.setStack l).setPc a))
  case call => exact refines_ite (refines_raise _ _) (refines_next _)
  case jp nnn => exact refines_next (s.setPc nnn)
  case ldVxK x => exact refines_next (s.setCs (.keyWait x))
  case ldDTVx x => exact refines_ite (refines_advance (s.setDt _)) (refines_next ((s.setDt _).setCs _))
  case seImm | sneImm | seReg | sneReg | skp | sknp => exact refines_skipIf _ s
  case addI => exact refines_withAddr fun a => refines_advance (s.setI a)
  case drw => exact refines_withOperands fun as => refines_advance ((s.setFb _).setReg VF _)
  case ldB | stRegs => exact refines_storeBytes s _ _
  case ldRegs =>
    refine refines_withOperands fun as => ?_
    rw [wrapped_loadRegs]
    exact refines_advance _
  all_goals exact refines_goto _ _

theorem refines_stepEvent (s : State) : Refines (stepEvent s) (stepEvent s.wrapped) := by
  rcases stepEvent_cases s with ⟨hcs, e⟩ | ⟨hcs, w, hf, e⟩ | ⟨-, f, -, e⟩ <;> rw [e]
  · rw [show stepEvent s.wrapped = .next s.wrapped from handle_step_waiting (s := s.wrapped) hcs]
    exact refines_next s
  · have hf' : fetchWord s.wrapped = .ok w := by
      rcases fetchWord_cases s with ⟨-, hs⟩ | ⟨-, -, hs⟩
      · exact (fetchWord_ok (s := s.wrapped) (.inl rfl)).trans (hs.symm.trans hf)
      · rw [hs] at hf; cases hf
    rw [stepEvent_ready (s := s.wrapped) hcs hf']
    rcases execWord_cases w s with ⟨i, hd, e⟩ | ⟨hd, e⟩ <;> rw [e]
    · rw [execWord_known hd]; exact refines_exec i s
    · rw [execWord_unknown hd]; exact refines_advance s
  · exact refines_raise f _

theorem refines_handle (e : Event) (s : State) : Refines (handle e s) (handle e s.wrapped) := by
  cases e with
  | step => exact refines_stepEvent s
  | tick => exact refines_ite (refines_advance (s.countTimers.setCs .ready)) (refines_next s.countTimers)
  | press k =>
    rcases press_cases k s with ⟨wx, hcs, e⟩ | ⟨hcs, e⟩
    · rw [handle, handle, e, press_waiting (s := s.wrapped) k hcs]
      exact refines_advance (((s.setKey k true).setReg wx (byteOfKey k)).setCs .ready)
    · rw [handle, handle, e, press_not_waiting (s := s.wrapped) k hcs]
      exact refines_next (s.setKey k true)
  | release k => exact refines_next (s.setKey k false)
  | load rom => exact refines_ite (refines_next (loaded rom s)) fun _ h => by cases h

/-- Settles O58: whatever completes under some policy completes alike under `WRAP`, whose `A12` raises nothing. -/
theorem faultPolicyRefinesWrap : Obligations.FaultPolicyRefinesWrap := by
  intro s t _ h
  rcases step_cases s with ⟨hs, e⟩ | ⟨ev, es, hs, e⟩ <;> rw [e] at h
  · rw [step_of_schedule_nil (s := s.withPolicy .wrap) hs]
    exact refines_handle .step s t h
  · rw [step_of_schedule_cons (s := s.withPolicy .wrap) hs]
    exact refines_handle ev (s.setSchedule es) t h

end Sys2Proof.Machine
